-- ==== Sys2Proof/Word.lean ====
section
/-! DEFINITION. The words of the BFU's fixed interface (00_scope.md R6): DATA_W = 64, CMD_W = 16.
Every value is an unsigned bit vector, bit 0 the least significant (R7). The operators of R8 are
BitVec's own at the width of the left operand: `&&&`, `|||`, `~~~`, `<<<`, `>>>` (a shift by the width
or more gives zeros), `setWidth` for zext_N and trunc_N. -/

namespace Sys2Proof

/-- A value on WDATA or RDATA: DATA_W = 64 bits (R6). -/
abbrev Word := BitVec 64

/-- A command word on `cmd`: CMD_W = 16 bits (R6). -/
abbrev CmdWord := BitVec 16

/-- One command: a 16-bit command word with the 64-bit operand presented beside it (R12, R37). -/
structure Command where
  cmd : CmdWord
  wdata : Word
  deriving DecidableEq, Repr

end Sys2Proof
end

