-- ==== Sys2Proof/Syntax.lean ====
section
/-! DEFINITION. The commands of the BFU, one constructor per row of the opcode table
(30_encoding.md R39), and the lines of its assembler (30_encoding.md R46, R48). -/

namespace Sys2Proof

/-- A decoded command with the operands it uses (R39, R40). `fidx` is CMD.FIDX as an unsigned integer,
0 to 63. An ignored operand bit has no place here (R40, log 11). -/
inductive Instr where
  /-- NOP (R69). -/
  | nop
  /-- GET: read field `fidx` (R63). -/
  | get (fidx : Nat)
  /-- SET: write field `fidx` with all 64 bits of WDATA, overflow-checked (R64). -/
  | set (fidx : Nat) (value : Word)
  /-- SETB: write field `fidx` with the boolean WDATA[0] (R65). -/
  | setb (fidx : Nat) (bit : Bool)
  /-- LOAD: write the whole word from WDATA (R70). -/
  | load (word : Word)
  /-- QUERY: read the layout constants of field `fidx` (R57). -/
  | query (fidx : Nat)
  /-- RDWORD: read the whole word (R71). -/
  | rdword
  deriving DecidableEq, Repr

/-- The assembler's `<field>`: a FIELD_NAME or a decimal index (R46). -/
inductive FieldRef where
  | name (label : String)
  | index (k : Nat)
  deriving DecidableEq, Repr

/-- One line of assembly: the seven mnemonics and `.cmd` (R46), then the pseudo-instructions (R48).
Numbers are as written, before any range check. -/
inductive AsmLine where
  | nop
  | get (f : FieldRef)
  | set (f : FieldRef) (value : Nat)
  | setb (f : FieldRef) (bit : Bool)
  | load (value : Nat)
  | query (f : FieldRef)
  | rdword
  /-- `.cmd <word16>, <value>`: any word, unchecked. -/
  | raw (word16 : Nat) (value : Nat)
  | clear
  | clrf (f : FieldRef)
  | setmax (f : FieldRef)
  | sett (f : FieldRef)
  | setf (f : FieldRef)
  deriving DecidableEq, Repr

end Sys2Proof
end

