-- ==== Sys2Proof/WellFormed.lean ====
section
/-! DEFINITION. When a term of Instr is a command the encoding can carry: its FIDX fits the 6-bit field
CMD[8:3] (30_encoding.md R38). An index of N or more is a legal encoding and well formed: the running
machine answers it with BADIDX (R41). The checks on a field-set (40_layout.md R50) are beside the
layout, in Machine/Layout.lean. -/

namespace Sys2Proof

/-- FIDX is an unsigned integer 0 to 63 (R38). -/
def fidxFits (fidx : Nat) : Bool := decide (fidx < 64)

/-- The instruction has an encoding (R38, R39). -/
def Instr.wf : Instr → Bool
  | .nop => true
  | .get i => fidxFits i
  | .set i _ => fidxFits i
  | .setb i _ => fidxFits i
  | .load _ => true
  | .query i => fidxFits i
  | .rdword => true

end Sys2Proof
end

