-- ==== Sys2Proof/Decode.lean ====
section
/-! DEFINITION. Format C16 (30_encoding.md R37, R38), the opcode map (R39), operand assembly (R40) and
the illegal encodings (R41): the decoder, total on any command word and operand, then the encoder. -/

namespace Sys2Proof

/-- CMD.OP = CMD[2:0] (R38). -/
def opOf (c : CmdWord) : BitVec 3 := c.extractLsb' 0 3

/-- CMD.FIDX = CMD[8:3] (R38), read as an unsigned integer, no extension and no scaling (R40). -/
def fidxOf (c : CmdWord) : Nat := (c.extractLsb' 3 6).toNat

/-- CMD.RSVD = CMD[15:9] (R38). -/
def rsvdOf (c : CmdWord) : BitVec 7 := c.extractLsb' 9 7

/-- Why a command word is no instruction (R41). Both reasons are the error ILLEGAL (R77). -/
inductive Reject where
  /-- CMD.RSVD is not 0. -/
  | reservedBits
  /-- CMD.OP is 111. -/
  | reservedOpcode
  deriving DecidableEq, Repr

/-- The instruction a command carries, or why it carries none (R39 to R41). -/
def decode (c : Command) : Except Reject Instr :=
  if rsvdOf c.cmd ≠ 0 then .error .reservedBits
  else
    match (opOf c.cmd).toNat with
    | 0 => .ok .nop
    | 1 => .ok (.get (fidxOf c.cmd))
    | 2 => .ok (.set (fidxOf c.cmd) c.wdata)
    | 3 => .ok (.setb (fidxOf c.cmd) (c.wdata.getLsbD 0))
    | 4 => .ok (.load c.wdata)
    | 5 => .ok (.query (fidxOf c.cmd))
    | 6 => .ok .rdword
    | _ => .error .reservedOpcode

/-- The command word of field index `fidx` and opcode `op` with RSVD = 0: FIDX*8 + OP (R38, R39). -/
def cmdWord (fidx op : Nat) : CmdWord := BitVec.ofNat 16 (fidx * 8 + op)

/-- The command of an instruction: the opcode numbers of R39, and 0 in every ignored operand bit, as
the assembler writes them (R46). -/
def encode : Instr → Command
  | .nop => { cmd := cmdWord 0 0, wdata := 0 }
  | .get i => { cmd := cmdWord i 1, wdata := 0 }
  | .set i v => { cmd := cmdWord i 2, wdata := v }
  | .setb i b => { cmd := cmdWord i 3, wdata := if b then 1 else 0 }
  | .load v => { cmd := cmdWord 0 4, wdata := v }
  | .query i => { cmd := cmdWord i 5, wdata := 0 }
  | .rdword => { cmd := cmdWord 0 6, wdata := 0 }

/-- Whether the instruction uses FIDX (the column "uses FIDX" of R39). -/
def Instr.usesFidx : Instr → Bool
  | .nop => false
  | .get _ => true
  | .set _ _ => true
  | .setb _ _ => true
  | .load _ => false
  | .query _ => true
  | .rdword => false

/-- The bits of WDATA the instruction uses (the column "uses WDATA" of R39). -/
def Instr.usedWdata : Instr → Word
  | .nop => 0
  | .get _ => 0
  | .set _ _ => BitVec.allOnes 64
  | .setb _ _ => 1
  | .load _ => BitVec.allOnes 64
  | .query _ => 0
  | .rdword => 0

/-- The command whose bits are `w` as one number: CMD in bits 15..0 and WDATA in bits 79..16, every bit
from `nbits` up taken as 0. The order of the two is a convention towards the host's table only: the
BFU is handed both at once (R37; log 7). -/
def Command.ofTableWord (nbits w : Nat) : Command :=
  let bits : BitVec 80 := BitVec.ofNat 80 (w % 2 ^ nbits)
  { cmd := bits.extractLsb' 0 16, wdata := bits.extractLsb' 16 64 }

/-- The instruction the decoder reads from a word of the opcode table (log 7). -/
def decodeTableWord (nbits w : Nat) : Option Instr :=
  match decode (Command.ofTableWord nbits w) with
  | .ok i => some i
  | .error _ => none

/-- One row of the opcode table: the fixed bits of its command words. -/
structure OpcodeRow where
  mnemonic : String
  matchBits : CmdWord
  mask : CmdWord
  deriving DecidableEq, Repr

/-- Whether a command word belongs to a row. -/
def OpcodeRow.covers (r : OpcodeRow) (c : CmdWord) : Bool := (c &&& r.mask) == r.matchBits

/-- The opcode table (R39): each row fixes OP and RSVD. -/
def opcodeRows : List OpcodeRow :=
  [ { mnemonic := "NOP", matchBits := 0x0000, mask := 0xFE07 },
    { mnemonic := "GET", matchBits := 0x0001, mask := 0xFE07 },
    { mnemonic := "SET", matchBits := 0x0002, mask := 0xFE07 },
    { mnemonic := "SETB", matchBits := 0x0003, mask := 0xFE07 },
    { mnemonic := "LOAD", matchBits := 0x0004, mask := 0xFE07 },
    { mnemonic := "QUERY", matchBits := 0x0005, mask := 0xFE07 },
    { mnemonic := "RDWORD", matchBits := 0x0006, mask := 0xFE07 } ]

/-- The mnemonic of an instruction's row (R39). -/
def Instr.mnemonic : Instr → String
  | .nop => "NOP"
  | .get _ => "GET"
  | .set _ _ => "SET"
  | .setb _ _ => "SETB"
  | .load _ => "LOAD"
  | .query _ => "QUERY"
  | .rdword => "RDWORD"

end Sys2Proof
end

