-- ==== Sys2Proof/Config.lean ====
section
/-! DEFINITION. What elaboration fixes (00_scope.md R5, 40_layout.md R49) and the free values of the
power-up state (70_reset_and_hazards.md R89). -/

namespace Sys2Proof

/-- The field-set handed to elaboration, before any check (R5, R49): `WIDTH[i]` in index order (N is
the length of the list) and the optional labels `FIELD_NAME[i]`. -/
structure FieldSet where
  widths : List Nat
  names : Option (List String)
  deriving DecidableEq, Repr

/-- The field-set of `State.reset`'s BFU: A:1, B:2, C:3, the source's own worked example
(95_test_vectors.md W2). DESIGN CHOICE, log 1: the spec takes the field-set as a parameter, and no
statement of the package rests on this one. -/
def Config.fieldSet : FieldSet := { widths := [1, 2, 3], names := some ["A", "B", "C"] }

/-- The bits STORE holds at power-up, before the first reset edge: unspecified (R89), one draw per BFU
`unit` (log 6). A narrower STORE takes the low bits. -/
opaque Config.powerUpStore (unit : Nat) : BitVec 64

/-- STATUS at power-up: unspecified (R89, log 6). -/
opaque Config.powerUpStatus (unit : Nat) : BitVec 3

/-- RSP_VALID at power-up: unspecified (R89, log 6). -/
opaque Config.powerUpRspValid (unit : Nat) : Bool

/-- RSP_ERR at power-up, as its two bits: unspecified (R89, log 6). -/
opaque Config.powerUpRspErr (unit : Nat) : BitVec 2

/-- RSP_DATA at power-up: unspecified (R89, log 6). -/
opaque Config.powerUpRspData (unit : Nat) : BitVec 64

end Sys2Proof
end

