-- ==== Sys2Proof/Machine/Layout.lean ====
section
/-! DEFINITION. The layout table, the storage selector and the masks (40_layout.md R49 to R56), and the
elaboration checks (R50). -/

namespace Sys2Proof

/-- A definition error: the number of R50's check that fails. -/
inductive DefinitionError where
  /-- Check 1: N ≥ 1. -/
  | noFields
  /-- Check 2: every width is 1 to 64. -/
  | widthRange
  /-- Check 3: TOTAL ≤ 64. -/
  | totalTooWide
  /-- Check 4: the names, if given, are exactly N. -/
  | nameCount
  /-- Check 4: the names, if given, are all distinct. -/
  | nameRepeated
  deriving DecidableEq, Repr

/-- R50, check 1. -/
def FieldSet.hasField (f : FieldSet) : Bool := decide (1 ≤ f.widths.length)

/-- R50, check 2. -/
def FieldSet.widthsInRange (f : FieldSet) : Bool := f.widths.all fun w => decide (1 ≤ w ∧ w ≤ 64)

/-- R50, check 3. -/
def FieldSet.totalFits (f : FieldSet) : Bool := decide (f.widths.sum ≤ 64)

/-- R50, check 4: as many names as fields. -/
def FieldSet.nameCountFits (f : FieldSet) : Bool :=
  match f.names with
  | none => true
  | some ns => decide (ns.length = f.widths.length)

/-- R50, check 4: no name twice. -/
def FieldSet.namesDistinct (f : FieldSet) : Bool :=
  match f.names with
  | none => true
  | some ns => decide ns.Nodup

/-- The four checks of R50. -/
def FieldSet.valid (f : FieldSet) : Bool :=
  f.hasField && f.widthsInRange && f.totalFits && f.nameCountFits && f.namesDistinct

/-- The layout of an elaborated BFU: a field-set that passes R50's checks. No BFU exists for another
(R50), so the type holds no other (log 3). -/
structure Layout where
  fields : FieldSet
  valid : fields.valid = true
  deriving DecidableEq, Repr

/-- The first of R50's checks that fails, in the order R50 lists them (log 3). -/
def FieldSet.definitionError? (f : FieldSet) : Option DefinitionError :=
  if f.hasField = false then some .noFields
  else if f.widthsInRange = false then some .widthRange
  else if f.totalFits = false then some .totalTooWide
  else if f.nameCountFits = false then some .nameCount
  else if f.namesDistinct = false then some .nameRepeated
  else none

/-- Elaboration (R50): the layout, or a definition error and no hardware. -/
def elaborate (f : FieldSet) : Except DefinitionError Layout :=
  if h : f.valid = true then .ok { fields := f, valid := h }
  else .error (f.definitionError?.getD .noFields)

/-- N, the field count (R5). -/
def Layout.n (L : Layout) : Nat := L.fields.widths.length

/-- LENGTH[i] = WIDTH[i] (R51). Only i < N names a field. -/
def Layout.len (L : Layout) (i : Nat) : Nat := L.fields.widths.getD i 0

/-- OFFSET[i] = Σ_{j<i} WIDTH[j] (R52). -/
def Layout.offset (L : Layout) (i : Nat) : Nat := (L.fields.widths.take i).sum

/-- TOTAL = Σ_{i<N} WIDTH[i] (R53). -/
def Layout.total (L : Layout) : Nat := L.fields.widths.sum

/-- The storage width for a total bit count: the least of 8, 16, 32, 64 that holds it (R54). -/
def storageWidth (total : Nat) : Nat :=
  if total ≤ 8 then 8 else if total ≤ 16 then 16 else if total ≤ 32 then 32 else 64

/-- SW, the width of STORE (R54). -/
def Layout.sw (L : Layout) : Nat := storageWidth L.total

/-- ALL_ONES = ONES_SW (R55). -/
def Layout.allOnes (L : Layout) : BitVec L.sw := BitVec.allOnes L.sw

/-- MASK[i] = ~(ALL_ONES << LENGTH[i]) (R55). -/
def Layout.mask (L : Layout) (i : Nat) : BitVec L.sw := ~~~(L.allOnes <<< L.len i)

/-- MASK64[i] = zext_64(MASK[i]) (R55). -/
def Layout.mask64 (L : Layout) (i : Nat) : Word := (L.mask i).setWidth 64

/-- FMASK[i] = MASK[i] << OFFSET[i] (R56). -/
def Layout.fmask (L : Layout) (i : Nat) : BitVec L.sw := L.mask i <<< L.offset i

/-- The layout of `State.reset`'s BFU (log 1). -/
def Layout.chosen : Layout := { fields := Config.fieldSet, valid := by decide }

end Sys2Proof
end

