-- ==== Sys2Proof/Machine/State.lean ====
section
/-! DEFINITION. The architectural state (10_state.md, its opening table) as plain data, the reasons a
step could stop, and the reset state (70_reset_and_hazards.md R87). -/

namespace Sys2Proof.Machine

/-- RSP_ERR's four values (30_encoding.md R44). All four codes of the 2-bit register have a name, so the
type holds exactly its values (log 4); `ErrCode.code` is the bits. -/
inductive ErrCode where
  | ok
  | ovf
  | badidx
  | illegal
  deriving DecidableEq, Repr

/-- The run-time errors (60_exceptions.md R75). -/
inductive RunError where
  /-- The operand does not fit (R79). -/
  | ovf
  /-- The field index names no field (R78). -/
  | badidx
  /-- Reserved opcode or reserved bits set (R77). -/
  | illegal
  deriving DecidableEq, Repr

/-- The input ports as sampled at one rising edge of `clk` (30_encoding.md R36). -/
structure PortInput where
  rst : Bool
  cmdValid : Bool
  cmd : CmdWord
  wdata : Word
  deriving DecidableEq, Repr

/-- A response: the error code and RDATA (30_encoding.md R44). -/
structure Response where
  err : ErrCode
  data : Word
  deriving DecidableEq, Repr

/-- The BFU's state: the layout table (R17), STORE (R13), STATUS (R15) and the response registers (R16);
and, the model's own, `inputs`: what the host presents at the coming edges, the next edge first
(R11, R19; log 2). -/
structure State where
  layout : Layout
  store : BitVec layout.sw
  status : BitVec 3
  rspValid : Bool
  rspErr : ErrCode
  rspData : Word
  inputs : List PortInput
  deriving DecidableEq, Repr

/-- Reasons the machine stops with a fault: none. Every error of the BFU is a response, after which it
goes on (60_exceptions.md R81). Raised by nobody; safe (log 8). -/
inductive Fault where
  deriving DecidableEq, Repr

/-- Reasons a step has no meaning. -/
inductive Refusal where
  /-- An instruction whose arm of `exec` is not modelled yet, by its mnemonic. Raised by nobody: every arm
  has its meaning. Safe. -/
  | notModelled (mnemonic : String)
  deriving DecidableEq, Repr

/-- The state after reset of a BFU elaborated for `L` (R87), with no port input scheduled (log 2). -/
def State.resetFor (L : Layout) : State :=
  { layout := L, store := 0, status := 0, rspValid := false, rspErr := .ok, rspData := 0, inputs := [] }

/-- The machine right after reset (R87), elaborated for the field-set of Config (log 1). -/
def State.reset : State := State.resetFor Layout.chosen

end Sys2Proof.Machine
end

