-- ==== Sys2Proof/Machine/Flags.lean ====
section
/-! DEFINITION. Error codes and STATUS bits (10_state.md R15, 60_exceptions.md R75), and `fault_o`
(R83). The BFU has no condition codes (R20). -/

namespace Sys2Proof.Machine

/-- The bits of an error code on `rsp_err` (30_encoding.md R44). -/
def ErrCode.code : ErrCode → BitVec 2
  | .ok => 0b00
  | .ovf => 0b01
  | .badidx => 0b10
  | .illegal => 0b11

/-- The error code with given bits (R44). -/
def ErrCode.ofCode (c : BitVec 2) : ErrCode :=
  match c.toNat with
  | 0 => .ok
  | 1 => .ovf
  | 2 => .badidx
  | _ => .illegal

/-- The error code an error answers with (R75). -/
def RunError.errCode : RunError → ErrCode
  | .ovf => .ovf
  | .badidx => .badidx
  | .illegal => .illegal

/-- The number of an error's STATUS bit (R15). -/
def RunError.statusBit : RunError → Nat
  | .ovf => 0
  | .badidx => 1
  | .illegal => 2

/-- STATUS.E <- 1, the other bits unchanged (R15, R76). -/
def statusWith (e : RunError) (st : BitVec 3) : BitVec 3 := st ||| (1 <<< e.statusBit)

/-- fault_o = STATUS[0] | STATUS[1] | STATUS[2] (R83). -/
def anyStatus (st : BitVec 3) : Bool := st.getLsbD 0 || st.getLsbD 1 || st.getLsbD 2

end Sys2Proof.Machine
end

