-- ==== Sys2Proof/Machine/Operands.lean ====
section
/-! DEFINITION. The operand forms (30_encoding.md R40) and the checks made on them: the field index, the
boolean of SETB, the overflow detector of SET (41_field_access.md R61) and LOAD's check (R70). -/

namespace Sys2Proof.Machine

/-- FIDX names a field: FIDX < N (R45, R78). -/
def validIndex (L : Layout) (i : Nat) : Bool := decide (i < L.n)

/-- SETB's value: zext_64(WDATA[0]), true 1 and false 0 (R65). -/
def boolWord (b : Bool) : Word := if b then 1 else 0

/-- TRUNC(v, i) = v & MASK64[i] (R61). -/
def truncField (L : Layout) (v : Word) (i : Nat) : Word := v &&& L.mask64 i

/-- OVF(v, i) = (TRUNC(v, i) != v) (R61). -/
def fieldOvf (L : Layout) (v : Word) (i : Nat) : Bool := truncField L v i != v

/-- LOAD's check: v[63:TOTAL] != 0 (R70). With TOTAL = 64 the slice is empty and the check is false
(R7): the shift by 64 gives zeros (R8). -/
def wordOvf (L : Layout) (v : Word) : Bool := (v >>> L.total) != 0

end Sys2Proof.Machine
end

