-- ==== Sys2Proof/Machine/Ops.lean ====
section
/-! DEFINITION. The shared operations: the field datapath (41_field_access.md R60, R62), the response
(00_scope.md R9) and raising an error (60_exceptions.md R76). The BFU has no trap and so no return
from one (R81, R82). -/

namespace Sys2Proof.Machine

/-- EXTRACT(s, i) = (s >> OFFSET[i]) & MASK[i] (R60). -/
def extract (L : Layout) (s : BitVec L.sw) (i : Nat) : BitVec L.sw := (s >>> L.offset i) &&& L.mask i

/-- INSERT(s, i, t) = (s & ~FMASK[i]) | ((trunc_SW(t) & MASK[i]) << OFFSET[i]) (R62). -/
def insert (L : Layout) (s : BitVec L.sw) (i : Nat) (t : Word) : BitVec L.sw :=
  (s &&& ~~~(L.fmask i)) ||| (((t.setWidth L.sw) &&& L.mask i) <<< L.offset i)

/-- respond(e, d): the response registers of an accepted command (R9, R16). -/
def respond (e : ErrCode) (d : Word) (s : State) : State :=
  { s with rspValid := true, rspErr := e, rspData := d }

/-- raise E(): respond(E, 0), STATUS.E <- 1, nothing else (R76). -/
def raise (e : RunError) (s : State) : State :=
  respond e.errCode 0 { s with status := statusWith e s.status }

/-- STORE <- w (R9). -/
def writeStore (s : State) (w : BitVec s.layout.sw) : State := { s with store := w }

/-- The index check of R45, before a command that names a field: BADIDX if FIDX ≥ N (R78). -/
def withField (i : Nat) (s : State) (run : State → State) : State :=
  if validIndex s.layout i then run s else raise .badidx s

end Sys2Proof.Machine
end

