-- ==== Sys2Proof/Machine/Field.lean ====
section
/-! DEFINITION. The field commands GET, SET and SETB (41_field_access.md R63 to R65). -/

namespace Sys2Proof.Machine

/-- GET (R63). -/
def execGet (i : Nat) (s : State) : Host.Outcome State Fault Refusal :=
  .next (withField i s fun s => respond .ok ((extract s.layout s.store i).setWidth 64) s)

/-- SET (R64). -/
def execSet (i : Nat) (v : Word) (s : State) : Host.Outcome State Fault Refusal :=
  .next (withField i s fun s =>
    if fieldOvf s.layout v i then raise .ovf s
    else respond .ok 0 (writeStore s (insert s.layout s.store i v)))

/-- SETB (R65). -/
def execSetb (i : Nat) (b : Bool) (s : State) : Host.Outcome State Fault Refusal :=
  .next (withField i s fun s => respond .ok 0 (writeStore s (insert s.layout s.store i (boolWord b))))

end Sys2Proof.Machine
end

