-- ==== Sys2Proof/Machine/Query.lean ====
section
/-! DEFINITION. QUERY, the layout constants (40_layout.md R57). -/

namespace Sys2Proof.Machine

/-- QUERY's RDATA: LENGTH[i] in bits 6:0, OFFSET[i] in 14:8, N in 22:16, TOTAL in 30:24, SW in 38:32
(R57). -/
def queryWord (L : Layout) (i : Nat) : Word :=
  BitVec.ofNat 64 (L.len i) ||| (BitVec.ofNat 64 (L.offset i) <<< 8) ||| (BitVec.ofNat 64 L.n <<< 16)
    ||| (BitVec.ofNat 64 L.total <<< 24) ||| (BitVec.ofNat 64 L.sw <<< 32)

/-- QUERY (R57). -/
def execQuery (i : Nat) (s : State) : Host.Outcome State Fault Refusal :=
  .next (withField i s fun s => respond .ok (queryWord s.layout i) s)

end Sys2Proof.Machine
end

