-- ==== Sys2Proof/Machine/WordControl.lean ====
section
/-! DEFINITION. The whole-word and control commands NOP, LOAD and RDWORD (42_word_and_control.md R69
to R71). -/

namespace Sys2Proof.Machine

/-- NOP (R69). -/
def execNop (s : State) : Host.Outcome State Fault Refusal := .next (respond .ok 0 s)

/-- LOAD (R70). -/
def execLoad (v : Word) (s : State) : Host.Outcome State Fault Refusal :=
  .next (if wordOvf s.layout v then raise .ovf s
    else respond .ok 0 (writeStore s (v.setWidth s.layout.sw)))

/-- RDWORD (R71). -/
def execRdword (s : State) : Host.Outcome State Fault Refusal :=
  .next (respond .ok (s.store.setWidth 64) s)

end Sys2Proof.Machine
end

