-- ==== Sys2Proof/Machine/Dispatch.lean ====
section
/-! DEFINITION. The dispatch of 30_encoding.md R45, one arm per instruction. -/

namespace Sys2Proof.Machine

def exec (i : Instr) (s : State) : Host.Outcome State Fault Refusal :=
  match i with
  | .nop => Sys2Proof.Machine.execNop s
  | .get fidx => Sys2Proof.Machine.execGet fidx s
  | .set fidx value => Sys2Proof.Machine.execSet fidx value s
  | .setb fidx bit => Sys2Proof.Machine.execSetb fidx bit s
  | .load word => Sys2Proof.Machine.execLoad word s
  | .query fidx => Sys2Proof.Machine.execQuery fidx s
  | .rdword => Sys2Proof.Machine.execRdword s

end Sys2Proof.Machine
end

