-- ==== Sys2Proof/Machine/Edge.lean ====
section
/-! DEFINITION. One rising edge of `clk` (30_encoding.md R47, 70_reset_and_hazards.md R88, R95): reset,
an accepted command, or an idle edge; and where the edge's port inputs come from (log 2). -/

namespace Sys2Proof.Machine

/-- A command presented outside reset. -/
def PortInput.ofCommand (c : Command) : PortInput :=
  { rst := false, cmdValid := true, cmd := c.cmd, wdata := c.wdata }

/-- No command and no reset. `cmd` and `wdata` are not sampled (R47). -/
def PortInput.idle : PortInput := { rst := false, cmdValid := false, cmd := 0, wdata := 0 }

/-- The command on the ports. -/
def PortInput.command (p : PortInput) : Command := { cmd := p.cmd, wdata := p.wdata }

/-- A rising edge with rst = 1 (R88): every piece of state as R87 gives it, the layout table unchanged.
What the host will present later is not the BFU's state and stands (log 2). -/
def resetEdge (s : State) : State := { State.resetFor s.layout with inputs := s.inputs }

/-- A rising edge with rst = 0 and cmd_valid = 0: RSP_VALID <- 0, nothing else (R16, R95). -/
def idleEdge (s : State) : State := { s with rspValid := false }

/-- The step of R45 for an accepted command: ILLEGAL if the word is no instruction (R77), checked first
(R80); else the instruction's meaning. -/
def acceptCommand (c : Command) (s : State) : Host.Outcome State Fault Refusal :=
  match decode c with
  | .error _ => .next (raise .illegal s)
  | .ok i => exec i s

/-- One rising edge with the port inputs `p` (R47, R88). -/
def clockEdge (p : PortInput) (s : State) : Host.Outcome State Fault Refusal :=
  if p.rst then .next (resetEdge s)
  else if p.cmdValid then acceptCommand p.command s
  else .next (idleEdge s)

/-- The port inputs of the coming edge; an idle edge once the host's schedule is used up (log 2). -/
def nextInput (s : State) : PortInput := s.inputs.headD PortInput.idle

/-- The schedule moves on by one edge. -/
def dropInput (s : State) : State := { s with inputs := s.inputs.tail }

/-- `p` in place of what the host would present at the coming edge. -/
def presentNext (p : PortInput) (s : State) : State := { s with inputs := p :: s.inputs.tail }

/-- The state at power-up of BFU `unit`, elaborated for `L`, before the first reset edge: every state bit
a free value (R89, log 6). -/
def State.powerUp (unit : Nat) (L : Layout) : State :=
  { layout := L
    store := (Config.powerUpStore unit).setWidth L.sw
    status := Config.powerUpStatus unit
    rspValid := Config.powerUpRspValid unit
    rspErr := ErrCode.ofCode (Config.powerUpRspErr unit)
    rspData := Config.powerUpRspData unit
    inputs := [] }

end Sys2Proof.Machine
end

