-- ==== Sys2Proof/Machine/Step.lean ====
section
/-! DEFINITION. One step of the machine: one rising edge of `clk` with the port inputs the host has
scheduled for it (00_scope.md R10, R11; log 2, log 10). -/

namespace Sys2Proof.Machine

/-- One rising edge. -/
def step (s : State) : Host.Outcome State Fault Refusal := clockEdge (nextInput s) (dropInput s)

/-- `s` with the table word `w` presented as a command at the coming edge (log 7). -/
def State.withFetchWord (s : State) (nbits w : Nat) : State :=
  presentNext (PortInput.ofCommand (Command.ofTableWord nbits w)) s

end Sys2Proof.Machine
end

