-- ==== Sys2Proof/Machine/Assembler.lean ====
section
/-! DEFINITION. The assembler (30_encoding.md R46) and its pseudo-instructions (R48): a tool outside the
hardware (92_eei_decisions.md D25), which no step calls. First from a line to a command, then from text
to a line. What R46 does not say of the text is log 12. -/

namespace Sys2Proof.Machine

/-- Why the assembler rejects a line (R46). -/
inductive AsmError where
  /-- The text is no line of R46. -/
  | badText
  /-- A number does not fit its place: an index above 63, a value of 2^64 or more, a word of 2^16 or more. -/
  | numberRange
  /-- A name or SETMAX, and the assembler does not know the layout. -/
  | layoutUnknown
  /-- No field of the layout has the name. -/
  | unknownName
  /-- The index is N or more. -/
  | indexBeyondLayout
  /-- A SET value of 2^LENGTH or more. -/
  | valueTooWide
  /-- A LOAD value with a one at or above bit TOTAL. -/
  | wordTooWide
  deriving DecidableEq, Repr

/-- The index of a `<field>`: a name through the layout's labels, or an index 0 to 63, rejected at N or more
if the layout is known (R46). -/
def resolveField (known : Option Layout) : FieldRef → Except AsmError Nat
  | .index k =>
    if 64 ≤ k then .error .numberRange
    else
      match known with
      | none => .ok k
      | some L => if validIndex L k then .ok k else .error .indexBeyondLayout
  | .name label =>
    match known with
    | none => .error .layoutUnknown
    | some L =>
      match L.fields.names with
      | none => .error .unknownName
      | some ns => if label ∈ ns then .ok (ns.idxOf label) else .error .unknownName

/-- A `<field>` names field `i` of the layout: it is the index `i` below N, or the FIELD_NAME that stands at
place `i` (00_scope.md R5, R46). -/
abbrev refersTo (L : Layout) : FieldRef → Nat → Prop
  | .index k, i => k = i ∧ i < L.n
  | .name label, i => ∃ ns, L.fields.names = some ns ∧ ns[i]? = some label

/-- A `<value>`: 0 to 2^64 − 1 (R46). -/
def asmValue (v : Nat) : Except AsmError Word :=
  if v < 2 ^ 64 then .ok (BitVec.ofNat 64 v) else .error .numberRange

/-- SET with a constant: rejected if the layout is known and the value is 2^LENGTH or more (R46). -/
def asmSet (known : Option Layout) (f : FieldRef) (v : Nat) : Except AsmError Instr := do
  let i ← resolveField known f
  let w ← asmValue v
  match known with
  | none => .ok (.set i w)
  | some L => if fieldOvf L w i then .error .valueTooWide else .ok (.set i w)

/-- LOAD with a constant: rejected if the layout is known and the value has a one at or above bit TOTAL
(R46). -/
def asmLoad (known : Option Layout) (v : Nat) : Except AsmError Instr := do
  let w ← asmValue v
  match known with
  | none => .ok (.load w)
  | some L => if wordOvf L w then .error .wordTooWide else .ok (.load w)

/-- SETMAX: SET of 2^LENGTH − 1, computed from the layout (R48). -/
def asmSetmax (known : Option Layout) (f : FieldRef) : Except AsmError Instr :=
  match known with
  | none => .error .layoutUnknown
  | some L => do
    let i ← resolveField known f
    asmSet known f (2 ^ L.len i - 1)

/-- `.cmd`: any word and operand, unchecked but for their ranges (R46). -/
def asmRaw (word16 v : Nat) : Except AsmError Command := do
  let w ← asmValue v
  if word16 < 2 ^ 16 then .ok { cmd := BitVec.ofNat 16 word16, wdata := w } else .error .numberRange

/-- The command of a line, by an assembler that knows the layout or not (R46, R48). -/
def assemble (known : Option Layout) : AsmLine → Except AsmError Command
  | .nop => .ok (encode .nop)
  | .get f => do return encode (.get (← resolveField known f))
  | .set f v => do return encode (← asmSet known f v)
  | .setb f b => do return encode (.setb (← resolveField known f) b)
  | .load v => do return encode (← asmLoad known v)
  | .query f => do return encode (.query (← resolveField known f))
  | .rdword => .ok (encode .rdword)
  | .raw w v => asmRaw w v
  | .clear => do return encode (← asmLoad known 0)
  | .clrf f => do return encode (← asmSet known f 0)
  | .setmax f => do return encode (← asmSetmax known f)
  | .sett f => do return encode (.setb (← resolveField known f) true)
  | .setf f => do return encode (.setb (← resolveField known f) false)

/-- White space inside a line (log 12). -/
def isBlankChar (c : Char) : Bool := c = ' ' || c = '\t'

/-- Without white space at either end (log 12). -/
def trimBlank (cs : List Char) : List Char :=
  ((cs.dropWhile isBlankChar).reverse.dropWhile isBlankChar).reverse

/-- The parts between commas; one part if there is no comma. -/
def splitComma : List Char → List (List Char)
  | [] => [[]]
  | c :: cs =>
    if c = ',' then [] :: splitComma cs
    else
      match splitComma cs with
      | [] => [[c]]
      | part :: parts => (c :: part) :: parts

/-- The decimal digits, each at its value. -/
def decDigits : List Char := "0123456789".toList

/-- The hexadecimal digits, each at its value. -/
def hexDigits : List Char := "0123456789abcdef".toList

/-- The number written in the digits of `alphabet`, most significant first; none if there is no digit or a
character is none. -/
def readDigits (alphabet cs : List Char) : Option Nat :=
  if cs.isEmpty then none
  else (cs.mapM fun c => alphabet.idxOf? c).map fun ds => ds.foldl (fun n d => n * alphabet.length + d) 0

/-- A decimal unsigned integer (R46). -/
def readDecimal (cs : List Char) : Option Nat := readDigits decDigits cs

/-- A decimal or `0x` hexadecimal unsigned integer (R46), its digits of either case (log 12). -/
def readNumber (cs : List Char) : Option Nat :=
  match cs with
  | '0' :: 'x' :: ds => readDigits hexDigits (ds.map Char.toLower)
  | _ => readDecimal cs

/-- `0`, `1`, `false` or `true` (R46). -/
def readBool (cs : List Char) : Option Bool :=
  if cs = "0".toList ∨ cs = "false".toList then some false
  else if cs = "1".toList ∨ cs = "true".toList then some true
  else none

/-- A `<field>`: a decimal index, or else a name (R46, log 12). -/
def readField (cs : List Char) : Option FieldRef :=
  match readDecimal cs with
  | some k => some (.index k)
  | none => if cs.isEmpty then none else some (.name (String.ofList cs))

/-- A mnemonic in capitals and its operands to a line (R46, R48). -/
def readLine (mnemonic : List Char) (operands : List (List Char)) : Option AsmLine :=
  match operands with
  | [] =>
    if mnemonic = "NOP".toList then some .nop
    else if mnemonic = "RDWORD".toList then some .rdword
    else if mnemonic = "CLEAR".toList then some .clear
    else none
  | [a] =>
    if mnemonic = "GET".toList then (readField a).map .get
    else if mnemonic = "QUERY".toList then (readField a).map .query
    else if mnemonic = "LOAD".toList then (readNumber a).map .load
    else if mnemonic = "CLRF".toList then (readField a).map .clrf
    else if mnemonic = "SETMAX".toList then (readField a).map .setmax
    else if mnemonic = "SETT".toList then (readField a).map .sett
    else if mnemonic = "SETF".toList then (readField a).map .setf
    else none
  | [a, b] =>
    if mnemonic = "SET".toList then
      match readField a, readNumber b with
      | some f, some v => some (.set f v)
      | _, _ => none
    else if mnemonic = "SETB".toList then
      match readField a, readBool b with
      | some f, some v => some (.setb f v)
      | _, _ => none
    else if mnemonic = ".CMD".toList then
      match readNumber a, readNumber b with
      | some w, some v => some (.raw w v)
      | _, _ => none
    else none
  | _ => none

/-- One line of text (R46): a comment from `;` on is dropped, the mnemonic stands first in either case, its
operands follow, separated by commas. -/
def parseLine (text : String) : Option AsmLine :=
  let line := trimBlank (text.toList.takeWhile fun c => c ≠ ';')
  let mnemonic := (line.takeWhile fun c => !isBlankChar c).map Char.toUpper
  let rest := trimBlank (line.dropWhile fun c => !isBlankChar c)
  readLine mnemonic (if rest.isEmpty then [] else (splitComma rest).map trimBlank)

/-- The command of a line of text. -/
def assembleText (known : Option Layout) (text : String) : Except AsmError Command :=
  match parseLine text with
  | none => .error .badText
  | some line => assemble known line

end Sys2Proof.Machine
end

