-- ==== Sys2Proof/Machine/Ports.lean ====
section
/-! DEFINITION. The output ports, driven continuously from state (10_state.md R22, 30_encoding.md R36). -/

namespace Sys2Proof.Machine

/-- `word_o`: STORE, SW bits (R22). -/
def wordO (s : State) : BitVec s.layout.sw := s.store

/-- `status_o`: STATUS (R22). -/
def statusO (s : State) : BitVec 3 := s.status

/-- `fault_o`: the OR of STATUS (R22, R83). -/
def faultO (s : State) : Bool := anyStatus s.status

/-- `rsp_valid`: RSP_VALID (R16). -/
def rspValidO (s : State) : Bool := s.rspValid

/-- `rsp_err`: the bits of RSP_ERR (R16, R44). -/
def rspErrO (s : State) : BitVec 2 := s.rspErr.code

/-- `rdata`: RSP_DATA (R16). -/
def rdataO (s : State) : Word := s.rspData

/-- The response a host samples on `rsp_err` and `rdata`, if `rsp_valid` is 1 (R16, R92). -/
def responseO (s : State) : Option Response :=
  if rspValidO s then some { err := ErrCode.ofCode (rspErrO s), data := rdataO s } else none

/-- The value of field `i` in STORE, zero-extended to 64 bits: what GET of it would answer (R60, R63). -/
def fieldValue (s : State) (i : Nat) : Word := (extract s.layout s.store i).setWidth 64

/-- STORE zero-extended to 64 bits: what RDWORD would answer (R71). -/
def storeValue (s : State) : Word := s.store.setWidth 64

end Sys2Proof.Machine
end

