-- ==== Sys2Proof/Machine/Run.lean ====
section
/-! DEFINITION. A run and its observation (00_scope.md R11, 70_reset_and_hazards.md R94): the responses in
order, and the final state. -/

namespace Sys2Proof.Machine

/-- The edges `ps` one after another, with the response the host samples after each edge that shows
one (R92). -/
def observeEdges : List PortInput → State → Host.Outcome (List Response × State) Fault Refusal
  | [], s => .next ([], s)
  | p :: ps, s =>
    match clockEdge p s with
    | .fault r => .fault r
    | .refused r => .refused r
    | .next t =>
      match observeEdges ps t with
      | .fault r => .fault r
      | .refused r => .refused r
      | .next (rs, u) => .next ((responseO t).toList ++ rs, u)

/-- A program (R11): its commands at successive edges. -/
def observeProgram (cs : List Command) (s : State) :
    Host.Outcome (List Response × State) Fault Refusal :=
  observeEdges (cs.map PortInput.ofCommand) s

/-- `zs` is an order in which an arbiter may put the commands `xs` and `ys` of two hosts: each host's own
order kept (20_memory.md R32). -/
def interleaves : List Command → List Command → List Command → Bool
  | xs, ys, [] => xs.isEmpty && ys.isEmpty
  | xs, ys, z :: zs =>
    (match xs with
      | x :: xs' => decide (x = z) && interleaves xs' ys zs
      | [] => false)
    || (match ys with
      | y :: ys' => decide (y = z) && interleaves xs ys' zs
      | [] => false)

end Sys2Proof.Machine
end

