-- ==== Sys2Proof/Safety.lean ====
section
/-! DEFINITION. What counts as a safe run, in the terms the statements use. -/

namespace Sys2Proof.Machine

/-- The padding bits STORE[SW−1:TOTAL] are zero (10_state.md R14). -/
abbrev paddingZero (s : State) : Prop := s.store >>> s.layout.total = 0

/-- RDATA is 0 whenever RSP_ERR is an error (30_encoding.md R44). -/
abbrev errorDataZero (s : State) : Prop := s.rspErr ≠ .ok → s.rspData = 0

/-- The error RSP_ERR shows has its STATUS bit set (10_state.md R15, 60_exceptions.md R76). -/
abbrev errorRecorded (s : State) : Prop :=
  (s.rspErr = .ovf → s.status.getLsbD 0 = true) ∧
  (s.rspErr = .badidx → s.status.getLsbD 1 = true) ∧
  (s.rspErr = .illegal → s.status.getLsbD 2 = true)

/-- The invariant of every state a run from reset reaches. -/
abbrev Inv (s : State) : Prop := paddingZero s ∧ errorDataZero s ∧ errorRecorded s

/-- An error-free run ends with STATUS = 000 (92_eei_decisions.md D15, 93_implementation_defined.md
entry 4). -/
abbrev errorFree (s : State) : Prop := s.status = 0

end Sys2Proof.Machine
end

