-- ==== Sys2Proof/Certificates/Slice0/Obligations.lean ====
section
/-! DEFINITION. The statements for the provers. Every one holds for every layout: a State carries its
own, and no statement rests on `Config.fieldSet` (log 1) or on the values of the power-up state (log 6).
A command word is written as a number: OP is `cmd % 8`, RSVD is not 0 exactly if `512 ≤ cmd`, and of a
word below 512 FIDX is `cmd / 8` (30_encoding.md R38). `{ s with … }` as the next state is the frame: every
part of the state not named is unchanged. -/

open Sys2Proof Sys2Proof.Machine

/-! ## Encoding -/

/-- Decode after encode (30_encoding.md R38 to R40), for every instruction with every operand the encoding
admits. -/
def Obligations.DecodeAfterEncodeIsIdentity : Prop :=
  ∀ i : Instr, i.wf = true → decode (encode i) = .ok i

/-- Encode after decode gives back every used bit of the command and 0 in every ignored bit (the columns of
R39; the zeros are R46's). -/
def Obligations.EncodeAfterDecodeKeepsUsedBits : Prop :=
  ∀ (c : Command) (i : Instr), decode c = .ok i →
    i.wf = true ∧
    encode i = { cmd := if i.usesFidx then c.cmd else c.cmd &&& 0x0007, wdata := c.wdata &&& i.usedWdata }

/-- A command word decodes to an instruction exactly if one row of the opcode table covers it, that row is
the only one, and it is the instruction's (R39, R41). -/
def Obligations.DecoderFollowsTheOpcodeTable : Prop :=
  ∀ c : Command,
    (opcodeRows.filter fun r => r.covers c.cmd).map (·.mnemonic) =
      match decode c with
      | .ok i => [i.mnemonic]
      | .error _ => []

/-- R40: FIDX and WDATA as each command reads them; an ignored bit has no effect on state or response. -/
def Obligations.OperandAssembly : Prop :=
  ∀ (s : State) (f : Nat) (d : Word), f < 64 →
    acceptCommand { cmd := BitVec.ofNat 16 (f * 8 + 0), wdata := d } s = exec .nop s ∧
    acceptCommand { cmd := BitVec.ofNat 16 (f * 8 + 1), wdata := d } s = exec (.get f) s ∧
    acceptCommand { cmd := BitVec.ofNat 16 (f * 8 + 2), wdata := d } s = exec (.set f d) s ∧
    acceptCommand { cmd := BitVec.ofNat 16 (f * 8 + 3), wdata := d } s = exec (.setb f (d.getLsbD 0)) s ∧
    acceptCommand { cmd := BitVec.ofNat 16 (f * 8 + 4), wdata := d } s = exec (.load d) s ∧
    acceptCommand { cmd := BitVec.ofNat 16 (f * 8 + 5), wdata := d } s = exec (.query f) s ∧
    acceptCommand { cmd := BitVec.ofNat 16 (f * 8 + 6), wdata := d } s = exec .rdword s

/-- Words of 95_test_vectors.md and R39 decode to the commands they stand for. -/
def Obligations.WrittenOutWordsDecode : Prop :=
  decode { cmd := 0b0000000111111000, wdata := 0 } = .ok .nop ∧
  decode { cmd := 0b0000000000010001, wdata := 0 } = .ok (.get 2) ∧
  decode { cmd := 0b0000000000001010, wdata := 3 } = .ok (.set 1 3) ∧
  decode { cmd := 0b0000000000010011, wdata := 2 } = .ok (.setb 2 false) ∧
  decode { cmd := 0b0000000000101100, wdata := 0x25 } = .ok (.load 0x25) ∧
  decode { cmd := 0b0000000111111101, wdata := 0 } = .ok (.query 63) ∧
  decode { cmd := 0b0000000000000110, wdata := 0 } = .ok .rdword ∧
  decode { cmd := 0b0000001000000001, wdata := 0 } = .error .reservedBits ∧
  decode { cmd := 0b0000000000011111, wdata := 0 } = .error .reservedOpcode

/-! ## The commands -/

/-- NOP (R69). -/
def Obligations.NopRespondsAndChangesNothing : Prop :=
  ∀ (s : State) (c : Command), c.cmd.toNat % 8 = 0 →
    (512 ≤ c.cmd.toNat → acceptCommand c s =
      .next { s with rspValid := true, rspErr := .illegal, rspData := 0, status := s.status ||| 0b100 }) ∧
    (c.cmd.toNat < 512 → decode c = .ok .nop) ∧
    encode .nop = { cmd := 0x0000, wdata := 0 } ∧
    exec .nop s = .next { s with rspValid := true, rspErr := .ok, rspData := 0 }

/-- GET (R63): bits LENGTH−1..0 of STORE shifted right by OFFSET, as numbers. -/
def Obligations.GetReadsItsField : Prop :=
  ∀ (s : State) (c : Command) (i : Nat), c.cmd.toNat % 8 = 1 → i = c.cmd.toNat / 8 →
    (512 ≤ c.cmd.toNat → acceptCommand c s =
      .next { s with rspValid := true, rspErr := .illegal, rspData := 0, status := s.status ||| 0b100 }) ∧
    (c.cmd.toNat < 512 → decode c = .ok (.get i)) ∧
    (s.layout.n ≤ i → exec (.get i) s =
      .next { s with rspValid := true, rspErr := .badidx, rspData := 0, status := s.status ||| 0b010 }) ∧
    (i < s.layout.n → exec (.get i) s =
      .next { s with
        rspValid := true
        rspErr := .ok
        rspData := BitVec.ofNat 64 (s.store.toNat / 2 ^ s.layout.offset i % 2 ^ s.layout.len i) })

/-- SET (R64): a value below 2^LENGTH replaces exactly the field's bits; any other raises OVF. -/
def Obligations.SetWritesItsFieldOrOverflows : Prop :=
  ∀ (s : State) (c : Command) (i : Nat) (v : Word), c.cmd.toNat % 8 = 2 → i = c.cmd.toNat / 8 →
    v = c.wdata →
    (512 ≤ c.cmd.toNat → acceptCommand c s =
      .next { s with rspValid := true, rspErr := .illegal, rspData := 0, status := s.status ||| 0b100 }) ∧
    (c.cmd.toNat < 512 → decode c = .ok (.set i v)) ∧
    (s.layout.n ≤ i → exec (.set i v) s =
      .next { s with rspValid := true, rspErr := .badidx, rspData := 0, status := s.status ||| 0b010 }) ∧
    (i < s.layout.n → 2 ^ s.layout.len i ≤ v.toNat → exec (.set i v) s =
      .next { s with rspValid := true, rspErr := .ovf, rspData := 0, status := s.status ||| 0b001 }) ∧
    (i < s.layout.n → v.toNat < 2 ^ s.layout.len i →
      ∃ w : BitVec s.layout.sw,
        exec (.set i v) s = .next { s with store := w, rspValid := true, rspErr := .ok, rspData := 0 } ∧
        ∀ k, k < s.layout.sw → w.getLsbD k =
          if s.layout.offset i ≤ k ∧ k < s.layout.offset i + s.layout.len i then
            v.getLsbD (k - s.layout.offset i)
          else s.store.getLsbD k)

/-- SETB (R65): the field becomes 1 or 0 by WDATA[0] alone, never OVF, exactly as SET of that value. -/
def Obligations.SetbWritesItsBoolean : Prop :=
  ∀ (s : State) (c : Command) (i : Nat) (b : Bool), c.cmd.toNat % 8 = 3 → i = c.cmd.toNat / 8 →
    b = c.wdata.getLsbD 0 →
    (512 ≤ c.cmd.toNat → acceptCommand c s =
      .next { s with rspValid := true, rspErr := .illegal, rspData := 0, status := s.status ||| 0b100 }) ∧
    (c.cmd.toNat < 512 → decode c = .ok (.setb i b)) ∧
    exec (.setb i b) s = exec (.set i (if b then 1 else 0)) s ∧
    (s.layout.n ≤ i → exec (.setb i b) s =
      .next { s with rspValid := true, rspErr := .badidx, rspData := 0, status := s.status ||| 0b010 }) ∧
    (i < s.layout.n →
      ∃ w : BitVec s.layout.sw,
        exec (.setb i b) s = .next { s with store := w, rspValid := true, rspErr := .ok, rspData := 0 } ∧
        ∀ k, k < s.layout.sw → w.getLsbD k =
          if k = s.layout.offset i then b
          else if s.layout.offset i < k ∧ k < s.layout.offset i + s.layout.len i then false
          else s.store.getLsbD k)

/-- LOAD (R70): a word below 2^TOTAL becomes STORE; any other raises OVF; FIDX is ignored. -/
def Obligations.LoadWritesTheWordOrOverflows : Prop :=
  ∀ (s : State) (c : Command) (v : Word), c.cmd.toNat % 8 = 4 → v = c.wdata →
    (512 ≤ c.cmd.toNat → acceptCommand c s =
      .next { s with rspValid := true, rspErr := .illegal, rspData := 0, status := s.status ||| 0b100 }) ∧
    (c.cmd.toNat < 512 → decode c = .ok (.load v)) ∧
    encode (.load v) = { cmd := 0x0004, wdata := v } ∧
    (2 ^ s.layout.total ≤ v.toNat → exec (.load v) s =
      .next { s with rspValid := true, rspErr := .ovf, rspData := 0, status := s.status ||| 0b001 }) ∧
    (v.toNat < 2 ^ s.layout.total → exec (.load v) s =
      .next { s with
        store := BitVec.ofNat s.layout.sw v.toNat, rspValid := true, rspErr := .ok, rspData := 0 })

/-- QUERY (R57): the five constants in their slots of RDATA, as one number. -/
def Obligations.QueryReportsTheLayout : Prop :=
  ∀ (s : State) (c : Command) (i : Nat), c.cmd.toNat % 8 = 5 → i = c.cmd.toNat / 8 →
    (512 ≤ c.cmd.toNat → acceptCommand c s =
      .next { s with rspValid := true, rspErr := .illegal, rspData := 0, status := s.status ||| 0b100 }) ∧
    (c.cmd.toNat < 512 → decode c = .ok (.query i)) ∧
    (s.layout.n ≤ i → exec (.query i) s =
      .next { s with rspValid := true, rspErr := .badidx, rspData := 0, status := s.status ||| 0b010 }) ∧
    (i < s.layout.n → exec (.query i) s =
      .next { s with
        rspValid := true
        rspErr := .ok
        rspData := BitVec.ofNat 64 (s.layout.len i + s.layout.offset i * 2 ^ 8 + s.layout.n * 2 ^ 16 +
          s.layout.total * 2 ^ 24 + s.layout.sw * 2 ^ 32) })

/-- RDWORD (R71): STORE, which is also what `word_o` shows, as a number; below 2^TOTAL wherever the padding
bits are zero. -/
def Obligations.RdwordReadsTheWord : Prop :=
  ∀ (s : State) (c : Command), c.cmd.toNat % 8 = 6 →
    (512 ≤ c.cmd.toNat → acceptCommand c s =
      .next { s with rspValid := true, rspErr := .illegal, rspData := 0, status := s.status ||| 0b100 }) ∧
    (c.cmd.toNat < 512 → decode c = .ok .rdword) ∧
    encode .rdword = { cmd := 0x0006, wdata := 0 } ∧
    exec .rdword s = .next { s with
      rspValid := true, rspErr := .ok, rspData := BitVec.ofNat 64 s.store.toNat } ∧
    wordO s = s.store ∧
    (paddingZero s → s.store.toNat < 2 ^ s.layout.total)

/-! ## Errors and status -/

/-- A word that is no command raises ILLEGAL, whatever its other bits and the state (R77). -/
def Obligations.IllegalWordsRaiseIllegal : Prop :=
  ∀ (s : State) (c : Command), (512 ≤ c.cmd.toNat ∨ c.cmd.toNat % 8 = 7) →
    (∃ r, decode c = .error r) ∧
    acceptCommand c s =
      .next { s with rspValid := true, rspErr := .illegal, rspData := 0, status := s.status ||| 0b100 }

/-- Which of the four codes every command answers with, in the priority of R80; FIDX is read as 6 bits. -/
def Obligations.EveryCommandAnswersByPriority : Prop :=
  ∀ (s : State) (c : Command), ∃ t, acceptCommand c s = .next t ∧ t.rspValid = true ∧
    t.rspErr =
      if 512 ≤ c.cmd.toNat ∨ c.cmd.toNat % 8 = 7 then ErrCode.illegal
      else if c.cmd.toNat % 8 ∈ [1, 2, 3, 5] ∧ s.layout.n ≤ c.cmd.toNat / 8 then ErrCode.badidx
      else if (c.cmd.toNat % 8 = 2 ∧ 2 ^ s.layout.len (c.cmd.toNat / 8) ≤ c.wdata.toNat) ∨
          (c.cmd.toNat % 8 = 4 ∧ 2 ^ s.layout.total ≤ c.wdata.toNat) then ErrCode.ovf
      else ErrCode.ok

/-- The whole effect of an erroring command (R76): its response and its STATUS bit. -/
def Obligations.AnErrorOnlyReportsItself : Prop :=
  ∀ (s t : State) (c : Command), acceptCommand c s = .next t → t.rspErr ≠ .ok →
    t = { s with
      rspValid := true
      rspErr := t.rspErr
      rspData := 0
      status := s.status |||
        (if t.rspErr = .ovf then 0b001 else if t.rspErr = .badidx then 0b010 else 0b100) }

/-- STATUS at every edge (R15): unchanged by an OK command and by an idle edge, one bit set by an error,
cleared by reset alone; shown on `status_o` and summarised on `fault_o`. -/
def Obligations.StatusBitsAreSticky : Prop :=
  ∀ (s t : State) (p : PortInput), clockEdge p s = .next t →
    statusO t = t.status ∧
    faultO t = (t.status != 0) ∧
    t.status =
      if p.rst then 0
      else if p.cmdValid = false ∨ t.rspErr = .ok then s.status
      else if t.rspErr = .ovf then s.status ||| 0b001
      else if t.rspErr = .badidx then s.status ||| 0b010
      else s.status ||| 0b100

/-- `fault_o` (R83): 1 from the edge of the first erroring command until reset. -/
def Obligations.FaultOutputRisesWithTheFirstError : Prop :=
  ∀ (s : State) (p : PortInput), ∃ t, clockEdge p s = .next t ∧
    faultO s = (s.status != 0) ∧
    faultO t = (!p.rst && (faultO s || (p.cmdValid && t.rspErr != .ok)))

/-- No command's response or write of STORE depends on STATUS, on the response registers, or on what is
presented later (R20). -/
def Obligations.NoCommandReadsStatusOrResponse : Prop :=
  ∀ (s : State) (c : Command) (st : BitVec 3) (rv : Bool) (re : ErrCode) (rd : Word) (ps : List PortInput),
    ∃ t u, acceptCommand c s = .next t ∧
      acceptCommand c { s with status := st, rspValid := rv, rspErr := re, rspData := rd, inputs := ps } = .next u ∧
      u.rspValid = t.rspValid ∧ u.rspErr = t.rspErr ∧ u.rspData = t.rspData ∧ storeValue u = storeValue t

/-- The error codes on `rsp_err` (R44), and RDATA 0 with every error; a command that errors writes nothing to
STORE. -/
def Obligations.ResponseFormat : Prop :=
  ErrCode.ok.code = 0b00 ∧ ErrCode.ovf.code = 0b01 ∧ ErrCode.badidx.code = 0b10 ∧
  ErrCode.illegal.code = 0b11 ∧
  ∀ (s : State) (p : PortInput), p.rst = false → p.cmdValid = true →
    ∃ t, clockEdge p s = .next t ∧ rspValidO t = true ∧
      (rspErrO t ≠ 0b00 → rdataO t = 0 ∧ storeValue t = storeValue s) ∧
      (p.cmd.toNat % 8 ∈ [0, 2, 3, 4, 7] → rdataO t = 0)

/-- Only SET, SETB and LOAD write STORE; every other command leaves it as it was. 10_state.md section 1:
"Only SET, SETB and LOAD write STORE." -/
def Obligations.OnlySetSetbLoadWriteStore : Prop :=
  ∀ (s t : State) (c : Command), acceptCommand c s = .next t → storeValue t ≠ storeValue s →
    t.rspErr = .ok ∧ c.cmd.toNat < 512 ∧ c.cmd.toNat % 8 ∈ [2, 3, 4]

/-! ## The layout -/

/-- Elaboration makes a BFU of exactly the field-sets that pass R50's four checks, and of that field-set; so
TOTAL is 1 to 64 and N at most 64. -/
def Obligations.ElaborationAcceptsExactlyValidFieldSets : Prop :=
  ∀ f : FieldSet,
    ((∃ L, elaborate f = .ok L) ↔
      1 ≤ f.widths.length ∧ (∀ w ∈ f.widths, 1 ≤ w ∧ w ≤ 64) ∧ f.widths.sum ≤ 64 ∧
      ∀ ns, f.names = some ns → ns.length = f.widths.length ∧ ns.Nodup) ∧
    (∀ L, elaborate f = .ok L → L.fields = f ∧ 1 ≤ L.total ∧ L.total ≤ 64 ∧ L.n ≤ 64)

/-- LENGTH, OFFSET and TOTAL (R51 to R53): the widths, their running sums from bit 0 with no gap, and the two
forms of TOTAL. -/
def Obligations.OffsetsAreRunningSums : Prop :=
  ∀ L : Layout,
    L.offset 0 = 0 ∧
    (∀ i, (h : i < L.n) → L.len i = L.fields.widths[i]'h) ∧
    (∀ i, i < L.n → L.offset (i + 1) = L.offset i + L.len i) ∧
    (∀ i, i < L.n → L.offset i = ∑ j ∈ Finset.range i, L.len j) ∧
    L.total = L.offset (L.n - 1) + L.len (L.n - 1) ∧
    L.total = ∑ j ∈ Finset.range L.n, L.len j

/-- The storage width (R54): the smallest of the ladder that holds TOTAL. -/
def Obligations.StorageWidthIsTheSmallestThatHolds : Prop :=
  ∀ L : Layout,
    L.sw ∈ [8, 16, 32, 64] ∧ L.total ≤ L.sw ∧ (∀ w ∈ [8, 16, 32, 64], L.total ≤ w → L.sw ≤ w)

/-- The field mask (R55): 2^LENGTH − 1 at SW bits and at 64 bits, all ones when LENGTH = SW. -/
def Obligations.MaskIsTwoToLengthMinusOne : Prop :=
  ∀ (L : Layout) (i : Nat), i < L.n →
    L.allOnes = BitVec.allOnes L.sw ∧
    L.mask i = ~~~(L.allOnes <<< L.len i) ∧
    (L.mask i).toNat = 2 ^ L.len i - 1 ∧
    (L.mask64 i).toNat = 2 ^ L.len i - 1 ∧
    (L.len i = L.sw → L.mask i = L.allOnes)

/-- The positioned mask (R56): ones exactly in the field's bits; shifting it back loses nothing. -/
def Obligations.PositionedMaskCoversTheField : Prop :=
  ∀ (L : Layout) (i : Nat), i < L.n →
    (∀ k, (L.fmask i).getLsbD k = true ↔ L.offset i ≤ k ∧ k < L.offset i + L.len i) ∧
    L.fmask i >>> L.offset i = L.mask i

/-- The range laws. 40_layout.md section 4 marks them as derived: "For every valid field-set and every
0 ≤ i < N". -/
def Obligations.LayoutRangeLaws : Prop :=
  ∀ L : Layout, 1 ≤ L.n ∧ L.n ≤ 64 ∧ 1 ≤ L.total ∧ L.total ≤ L.sw ∧ L.sw ≤ 64 ∧
    ∀ i, i < L.n →
      1 ≤ L.len i ∧ L.len i ≤ 64 ∧ L.offset i ≤ 63 ∧ L.offset i + L.len i ≤ L.total ∧ L.len i ≤ L.sw

/-- No two fields share a bit, and together they tile bits TOTAL−1..0. 40_layout.md section 4 marks it as
derived: "no two fields share a bit". -/
def Obligations.FieldsTileTheWord : Prop :=
  ∀ L : Layout,
    (∀ i j, i < L.n → j < L.n → i ≠ j → L.fmask i &&& L.fmask j = 0) ∧
    ∀ k, k < L.total ↔ ∃ i, i < L.n ∧ (L.fmask i).getLsbD k = true

/-! ## The field datapath -/

/-- The overflow detector (R61): its formula and the two equivalent forms, over all 64 bits. -/
def Obligations.OverflowDetectorChecksAllBits : Prop :=
  ∀ (L : Layout) (v : Word) (i : Nat), i < L.n →
    truncField L v i = v &&& L.mask64 i ∧
    (fieldOvf L v i = true ↔ truncField L v i ≠ v) ∧
    (fieldOvf L v i = true ↔ ∃ k, L.len i ≤ k ∧ k < 64 ∧ v.getLsbD k = true) ∧
    (fieldOvf L v i = true ↔ 2 ^ L.len i ≤ v.toNat) ∧
    (L.len i = 64 → fieldOvf L v i = false)

/-- The inserter (R62), whatever the value: the field takes TRUNC(t, i), every other bit stands. -/
def Obligations.InsertWritesOnlyItsField : Prop :=
  ∀ (L : Layout) (s : BitVec L.sw) (i : Nat) (t : Word), i < L.n →
    insert L s i t = (s &&& ~~~(L.fmask i)) ||| (((t.setWidth L.sw) &&& L.mask i) <<< L.offset i) ∧
    insert L s i t &&& ~~~(L.fmask i) = s &&& ~~~(L.fmask i) ∧
    (extract L (insert L s i t) i).setWidth 64 = truncField L t i

/-! ## Laws over several commands -/

/-- SET then GET (41_field_access.md section 3, marked derived there: "`SET i, v` responds OK, and a following
`GET i` responds OK with RDATA = v"). -/
def Obligations.SetThenGetReturnsTheValue : Prop :=
  ∀ (s : State) (i : Nat) (v : Word), i < s.layout.n →
    (v.toNat < 2 ^ s.layout.len i →
      ∃ t u, exec (.set i v) s = .next t ∧ t.rspErr = .ok ∧
        exec (.get i) t = .next u ∧ u.rspErr = .ok ∧ u.rspData = v) ∧
    (2 ^ s.layout.len i ≤ v.toNat → ∃ t, exec (.set i v) s = .next t ∧ t.rspErr = .ovf)

/-- A SET or SETB of one field, OK or not, leaves every other field and the padding as they were
(41_field_access.md section 3, marked derived there). -/
def Obligations.FieldWritesLeaveOtherFieldsAlone : Prop :=
  ∀ (s : State) (i j : Nat) (v : Word) (b : Bool), i ≠ j → j < s.layout.n →
    (∃ t, exec (.set i v) s = .next t ∧ fieldValue t j = fieldValue s j ∧
      storeValue t >>> t.layout.total = storeValue s >>> s.layout.total) ∧
    (∃ t, exec (.setb i b) s = .next t ∧ fieldValue t j = fieldValue s j ∧
      storeValue t >>> t.layout.total = storeValue s >>> s.layout.total)

/-- Successful writes to different fields commute; of two to one field the later wins (41_field_access.md
section 3, marked derived there). -/
def Obligations.FieldWritesCommuteAndLaterWins : Prop :=
  ∀ (s : State) (i j : Nat) (a b : Word), i < s.layout.n → j < s.layout.n →
    a.toNat < 2 ^ s.layout.len i → b.toNat < 2 ^ s.layout.len j →
    ∃ t t' u u', exec (.set i a) s = .next t ∧ exec (.set j b) t = .next t' ∧
      exec (.set j b) s = .next u ∧ exec (.set i a) u = .next u' ∧
      t.rspErr = .ok ∧ t'.rspErr = .ok ∧ u.rspErr = .ok ∧ u'.rspErr = .ok ∧
      (i ≠ j → storeValue t' = storeValue u') ∧
      (i = j → storeValue t' = storeValue u)

/-- Issuing one command twice in a row leaves the state as issuing it once (20_memory.md section 2, marked
derived there: "issuing one twice in a row leaves the same STORE as issuing it once"; for reads "Repeating
any of them gives the same response"). -/
def Obligations.RepeatingACommandChangesNothing : Prop :=
  ∀ (s : State) (c : Command), ∃ t, acceptCommand c s = .next t ∧ acceptCommand c t = .next t

/-- A LOAD that fits is a SET of every field, one after another, from a state with zero padding
(42_word_and_control.md, LOAD's corner cases, marked derived there). -/
def Obligations.LoadIsASetOfEveryField : Prop :=
  ∀ (s : State) (v : Word), paddingZero s → v.toNat < 2 ^ s.layout.total →
    ∃ t u, exec (.load v) s = .next t ∧
      observeProgram ((List.range s.layout.n).map fun i =>
          encode (.set i ((extract s.layout (v.setWidth s.layout.sw) i).setWidth 64))) s
        = .next (List.replicate s.layout.n { err := .ok, data := 0 }, u) ∧
      storeValue u = storeValue t ∧ storeValue t = v

/-- The copy law (42_word_and_control.md, marked derived there): RDWORD on one BFU and LOAD of its answer on
another of the same layout copy STORE. -/
def Obligations.RdwordThenLoadCopies : Prop :=
  ∀ x y : State, x.layout = y.layout → paddingZero x →
    ∃ x' y', exec .rdword x = .next x' ∧ x'.rspErr = .ok ∧
      exec (.load x'.rspData) y = .next y' ∧ y'.rspErr = .ok ∧ storeValue y' = storeValue x ∧
      storeValue x' = storeValue x

/-! ## Edges, reset and runs -/

/-- Reset (R87) at any edge with rst = 1 (R88), from any state, whatever is presented; a second such edge
changes nothing. -/
def Obligations.ResetEdgeGivesTheResetState : Prop :=
  ∀ (s : State) (p q : PortInput), p.rst = true → q.rst = true →
    ∃ t, clockEdge p s = .next t ∧ clockEdge q t = .next t ∧
      t.layout = s.layout ∧ storeValue t = 0 ∧ wordO t = 0 ∧ t.status = 0 ∧ statusO t = 0 ∧ t.rspValid = false ∧ rspErrO t = 0b00 ∧
      t.rspData = 0 ∧ faultO t = false

/-- The reset state of a BFU of any layout (R87), and of the power-up state one reset edge leads to it (R89:
nothing of the unspecified state is left). -/
def Obligations.ResetStateOfEveryLayout : Prop :=
  ∀ (L : Layout) (unit : Nat) (p : PortInput), p.rst = true →
    State.resetFor L =
      { layout := L, store := 0, status := 0, rspValid := false, rspErr := .ok, rspData := 0, inputs := [] } ∧
    clockEdge p (State.powerUp unit L) = .next (State.resetFor L) ∧
    State.reset = State.resetFor Layout.chosen

/-- After reset every field reads 0 (41_field_access.md section 3, marked derived there). -/
def Obligations.FieldsReadZeroAfterReset : Prop :=
  ∀ (L : Layout) (i : Nat), i < L.n →
    exec (.get i) (State.resetFor L) = .next { State.resetFor L with rspValid := true }

/-- What an edge does with the ports (R16, R47): outside reset a presented command is accepted, executes, and
its response shows; with cmd_valid = 0 nothing is sampled and only RSP_VALID changes; a command presented
during reset is not accepted, and the edge leaves the reset values (R87). -/
def Obligations.EdgeAcceptsWhatIsPresented : Prop :=
  ∀ (s : State) (p : PortInput),
    (p.rst = false → p.cmdValid = true → ∃ t, acceptCommand { cmd := p.cmd, wdata := p.wdata } s = .next t ∧
      clockEdge p s = .next t ∧ rspValidO t = true ∧
      responseO t = some { err := t.rspErr, data := t.rspData }) ∧
    (p.rst = false → p.cmdValid = false → clockEdge p s = .next { s with rspValid := false }) ∧
    (p.rst = true → clockEdge p s =
      .next { s with store := 0, status := 0, rspValid := false, rspErr := .ok, rspData := 0 }) ∧
    rspValidO s = s.rspValid ∧ rspErrO s = s.rspErr.code ∧ rdataO s = s.rspData

/-- A step is the edge with the next scheduled input; where that is a command that decodes to `i`, it is
`exec i`, and the schedule has moved on by one. Past the schedule's end it is an idle edge (log 2). -/
def Obligations.StepRunsTheDecodedInstruction : Prop :=
  (∀ (s : State) (p : PortInput) (ps : List PortInput) (i : Instr), s.inputs = p :: ps → p.rst = false →
    p.cmdValid = true → decode { cmd := p.cmd, wdata := p.wdata } = .ok i →
    step s = exec i { s with inputs := ps }) ∧
  (∀ (s : State) (nbits w : Nat) (i : Instr), decodeTableWord nbits w = some i →
    step (s.withFetchWord nbits w) = exec i { s with inputs := s.inputs.tail }) ∧
  (∀ s : State, s.inputs = [] → step s = .next { s with rspValid := false })

/-- Every step answers a next state, never a fault or a refusal (log 8, DEDUCED from 60_exceptions.md section 4
and 30_encoding.md section 9), of the same layout (10_state.md section 3: "No command writes them, and reset
does not change them."), with the schedule one edge further (log 2). -/
def Obligations.EveryStepGoesOnWithTheSameLayout : Prop :=
  ∀ s : State, ∃ t, step s = .next t ∧ t.layout = s.layout ∧ t.inputs = s.inputs.tail

/-- The invariant at reset, for every layout. -/
def Obligations.ResetMeetsTheInvariant : Prop :=
  (∀ L : Layout, Inv (State.resetFor L)) ∧ Inv State.reset

/-- Every step keeps the invariant: padding zero (10_state.md R14, marked derived there), RDATA 0 beside an
error (R44), every reported error recorded in STATUS (R76). -/
def Obligations.EveryStepKeepsTheInvariant : Prop :=
  ∀ s t : State, Inv s → step s = .next t → Inv t

/-- A program gets exactly one response per command (R44, R94), with RDATA 0 beside every error. -/
def Obligations.OneResponsePerCommand : Prop :=
  ∀ (cs : List Command) (s : State), ∃ rs u, observeProgram cs s = .next (rs, u) ∧
    rs.length = cs.length ∧ (∀ r ∈ rs, r.err ≠ .ok → r.data = 0)

/-- Commands take effect one at a time, in order, each on the state the earlier ones left (R31). -/
def Obligations.CommandsTakeEffectInOrder : Prop :=
  ∀ (xs ys : List Command) (c : Command) (s : State), ∃ rs u t qs v,
    observeProgram xs s = .next (rs, u) ∧ acceptCommand c u = .next t ∧
    observeProgram ys t = .next (qs, v) ∧
    observeProgram (xs ++ c :: ys) s = .next (rs ++ { err := t.rspErr, data := t.rspData } :: qs, v)

/-- A STATUS bit is 1 at the end of a run exactly if it was 1 before it or some response reported its error;
so from STATUS = 000, as after reset, it is 000 at the end exactly if every response was OK
(92_eei_decisions.md D15). -/
def Obligations.FinalStatusTellsWhichErrorsHappened : Prop :=
  (∀ L : Layout, errorFree (State.resetFor L)) ∧
  ∀ (s : State) (cs : List Command), ∃ rs u, observeProgram cs s = .next (rs, u) ∧
    (u.status.getLsbD 0 = true ↔ s.status.getLsbD 0 = true ∨ ∃ r ∈ rs, r.err = .ovf) ∧
    (u.status.getLsbD 1 = true ↔ s.status.getLsbD 1 = true ∨ ∃ r ∈ rs, r.err = .badidx) ∧
    (u.status.getLsbD 2 = true ↔ s.status.getLsbD 2 = true ∨ ∃ r ∈ rs, r.err = .illegal) ∧
    (errorFree u ↔ errorFree s ∧ ∀ r ∈ rs, r.err = .ok)

/-- Idle edges anywhere in a run change no response and no final STORE or STATUS
(70_reset_and_hazards.md section 5, marked derived there). -/
def Obligations.IdleEdgesChangeNoResponse : Prop :=
  ∀ (ps : List PortInput) (s : State), (∀ p ∈ ps, p.rst = false) →
    ∃ rs u v, observeEdges ps s = .next (rs, u) ∧
      observeProgram ((ps.filter fun p => p.cmdValid).map fun p => { cmd := p.cmd, wdata := p.wdata }) s
        = .next (rs, v) ∧
      storeValue u = storeValue v ∧ u.status = v.status ∧ u.rspErr = v.rspErr ∧ u.rspData = v.rspData

/-- The steps of the machine over a scheduled program end in the state the observed run ends in (R10, R11). -/
def Obligations.StepsRunTheScheduledProgram : Prop :=
  ∀ (cs : List Command) (ps : List PortInput) (s : State), s.inputs = cs.map PortInput.ofCommand ++ ps →
    ∃ rs u, observeProgram cs { s with inputs := ps } = .next (rs, u) ∧
      Sys2Proof.core.run cs.length s = .next u

/-- A host's GET then SET is not atomic against another host's SET: some order the arbiter may choose loses the
other host's write (R32). -/
def Obligations.HostReadModifyWriteIsNotAtomic : Prop :=
  ∀ (s : State) (i : Nat) (mine other : Word), i < s.layout.n →
    mine.toNat < 2 ^ s.layout.len i → other.toNat < 2 ^ s.layout.len i →
    ∃ zs u, interleaves [encode (.get i), encode (.set i mine)] [encode (.set i other)] zs = true ∧
      observeProgram zs s =
        .next ([{ err := .ok, data := fieldValue s i }, { err := .ok, data := 0 }, { err := .ok, data := 0 }], u) ∧
      fieldValue u i = mine

/-! ## The assembler -/

/-- An assembler that knows the layout emits no command that errors, `.cmd` apart (R46: it rejects bad indices
and constants). -/
def Obligations.AssembledCommandsNeverError : Prop :=
  ∀ (a : AsmLine) (s : State) (c : Command), (∀ w v, a ≠ .raw w v) →
    assemble (some s.layout) a = .ok c →
    ∃ t, acceptCommand c s = .next t ∧ t.rspErr = .ok

/-- What the assembler emits for each line of R46, and when it emits anything (`= .ok c ↔ …`). Knowing the
layout: the encoder's command of the field that `<field>` names, by its index or by its FIELD_NAME (R5), if it
names one and the constant fits; an index of N or more, an unknown name and a constant that does not fit are
rejected. Not knowing it: an index 0 to 63 and a 64-bit value. `.cmd`: the word and operand as written. -/
def Obligations.AssemblerAcceptsExactlyWhatFits : Prop :=
  ∀ (L : Layout) (f : FieldRef) (k v : Nat) (b : Bool) (c : Command),
    (assemble (some L) .nop = .ok c ↔ c = encode .nop) ∧
    (assemble (some L) (.get f) = .ok c ↔ ∃ i, refersTo L f i ∧ c = encode (.get i)) ∧
    (assemble (some L) (.set f v) = .ok c ↔
      ∃ i, refersTo L f i ∧ v < 2 ^ L.len i ∧ c = encode (.set i (BitVec.ofNat 64 v))) ∧
    (assemble (some L) (.setb f b) = .ok c ↔ ∃ i, refersTo L f i ∧ c = encode (.setb i b)) ∧
    (assemble (some L) (.load v) = .ok c ↔ v < 2 ^ L.total ∧ c = encode (.load (BitVec.ofNat 64 v))) ∧
    (assemble (some L) (.query f) = .ok c ↔ ∃ i, refersTo L f i ∧ c = encode (.query i)) ∧
    (assemble (some L) .rdword = .ok c ↔ c = encode .rdword) ∧
    (assemble (some L) (.raw k v) = .ok c ↔
      k < 2 ^ 16 ∧ v < 2 ^ 64 ∧ c = { cmd := BitVec.ofNat 16 k, wdata := BitVec.ofNat 64 v }) ∧
    (assemble none .nop = .ok c ↔ c = encode .nop) ∧
    (assemble none (.get (.index k)) = .ok c ↔ k < 64 ∧ c = encode (.get k)) ∧
    (assemble none (.set (.index k) v) = .ok c ↔
      k < 64 ∧ v < 2 ^ 64 ∧ c = encode (.set k (BitVec.ofNat 64 v))) ∧
    (assemble none (.setb (.index k) b) = .ok c ↔ k < 64 ∧ c = encode (.setb k b)) ∧
    (assemble none (.load v) = .ok c ↔ v < 2 ^ 64 ∧ c = encode (.load (BitVec.ofNat 64 v))) ∧
    (assemble none (.query (.index k)) = .ok c ↔ k < 64 ∧ c = encode (.query k)) ∧
    (assemble none .rdword = .ok c ↔ c = encode .rdword) ∧
    (assemble none (.raw k v) = .ok c ↔
      k < 2 ^ 16 ∧ v < 2 ^ 64 ∧ c = { cmd := BitVec.ofNat 16 k, wdata := BitVec.ofNat 64 v })

/-- A `<field>` that is a FIELD_NAME of the layout resolves to the one index at which the name stands there
(R5, R46), an index below N to itself, and every other `<field>` (an index of N or more, an unknown name, any
name where the layout has none) to none. -/
def Obligations.FieldNamesResolveToTheirIndex : Prop :=
  ∀ L : Layout,
    (∀ ns, L.fields.names = some ns → ns.length = L.n ∧
      (∀ i, (h : i < ns.length) → resolveField (some L) (.name (ns[i]'h)) = .ok i) ∧
      ∀ label, label ∉ ns → ∃ e, resolveField (some L) (.name label) = .error e) ∧
    (L.fields.names = none → ∀ label, ∃ e, resolveField (some L) (.name label) = .error e) ∧
    (∀ k, k < L.n → resolveField (some L) (.index k) = .ok k) ∧
    (∀ k, L.n ≤ k → ∃ e, resolveField (some L) (.index k) = .error e)

/-- The pseudo-instructions (R48): each is one command with the stated meaning, and is rejected where its
`<field>` names no field (R46). -/
def Obligations.PseudoInstructionsMeanWhatTheySay : Prop :=
  (∀ (L : Layout) (f : FieldRef), (∀ i, ¬ refersTo L f i) →
    ∀ a ∈ [AsmLine.clrf f, .setmax f, .sett f, .setf f], ∃ e, assemble (some L) a = .error e) ∧
  ∀ (s : State) (f : FieldRef) (i : Nat), refersTo s.layout f i →
    (∃ c t, assemble (some s.layout) .clear = .ok c ∧ c = encode (.load 0) ∧ acceptCommand c s = .next t ∧
      storeValue t = 0 ∧ t.status = s.status) ∧
    (∃ c t, assemble (some s.layout) (.clrf f) = .ok c ∧ c = encode (.set i 0) ∧
      acceptCommand c s = .next t ∧ fieldValue t i = 0) ∧
    (∃ c t, assemble (some s.layout) (.setmax f) = .ok c ∧
      c = encode (.set i (BitVec.ofNat 64 (2 ^ s.layout.len i - 1))) ∧
      acceptCommand c s = .next t ∧ (fieldValue t i).toNat = 2 ^ s.layout.len i - 1) ∧
    (∃ c t, assemble (some s.layout) (.sett f) = .ok c ∧ c = encode (.setb i true) ∧
      acceptCommand c s = .next t ∧ fieldValue t i = 1) ∧
    (∃ c t, assemble (some s.layout) (.setf f) = .ok c ∧ c = encode (.setb i false) ∧
      acceptCommand c s = .next t ∧ fieldValue t i = 0)
end

