-- ==== Sys2Proof/Laws/Decode.lean ====
section
/-! SUPPORT. The fields of a command word as numbers (30_encoding.md R38: CMD = RSVD*512 + FIDX*8 + OP), and
what the decoder answers in those terms. -/

namespace Sys2Proof

theorem opOf_toNat (c : CmdWord) : (opOf c).toNat = c.toNat % 8 := by
  simp [opOf, BitVec.extractLsb'_toNat]

theorem fidxOf_eq (c : CmdWord) : fidxOf c = c.toNat / 8 % 64 := by
  simp [fidxOf, BitVec.extractLsb'_toNat, Nat.shiftRight_eq_div_pow]

theorem rsvdOf_ne_zero_iff (c : CmdWord) : rsvdOf c ≠ 0 ↔ 512 ≤ c.toNat := by
  have h : (rsvdOf c).toNat = c.toNat / 512 := by
    have := c.isLt
    simp only [rsvdOf, BitVec.extractLsb'_toNat, Nat.shiftRight_eq_div_pow]
    omega
  rw [ne_eq, ← BitVec.toNat_inj, h]
  simp

/-- A word with a reserved bit set is no instruction. -/
theorem decode_reservedBits (c : Command) (h : 512 ≤ c.cmd.toNat) : decode c = .error .reservedBits := by
  rw [decode, if_pos ((rsvdOf_ne_zero_iff _).2 h)]

/-- Every other word is decoded by its opcode. -/
theorem decode_byOpcode (c : Command) (h : c.cmd.toNat < 512) :
    decode c =
      if c.cmd.toNat % 8 = 0 then .ok .nop
      else if c.cmd.toNat % 8 = 1 then .ok (.get (c.cmd.toNat / 8))
      else if c.cmd.toNat % 8 = 2 then .ok (.set (c.cmd.toNat / 8) c.wdata)
      else if c.cmd.toNat % 8 = 3 then .ok (.setb (c.cmd.toNat / 8) (c.wdata.getLsbD 0))
      else if c.cmd.toNat % 8 = 4 then .ok (.load c.wdata)
      else if c.cmd.toNat % 8 = 5 then .ok (.query (c.cmd.toNat / 8))
      else if c.cmd.toNat % 8 = 6 then .ok .rdword
      else .error .reservedOpcode := by
  have hf : fidxOf c.cmd = c.cmd.toNat / 8 := by
    rw [fidxOf_eq]
    omega
  rw [decode, if_neg (fun x => absurd ((rsvdOf_ne_zero_iff _).1 x) (by omega)), opOf_toNat, hf]
  have hm : c.cmd.toNat % 8 < 8 := Nat.mod_lt _ (by omega)
  generalize c.cmd.toNat % 8 = op at hm
  interval_cases op <;> rfl

theorem cmdWord_toNat (fidx op : Nat) (hf : fidx < 64) (ho : op < 8) :
    (cmdWord fidx op).toNat = fidx * 8 + op := by
  simp [cmdWord]
  omega

end Sys2Proof
end

