-- ==== Sys2Proof/Laws/Layout.lean ====
section
/-! SUPPORT. What the definition of the layout table gives its users: bounds and the bits of the masks. -/

namespace Sys2Proof

theorem Layout.hasField_true (L : Layout) : 1 ≤ L.n := by
  have h := L.valid
  simp only [FieldSet.valid, FieldSet.hasField, Bool.and_eq_true, decide_eq_true_eq] at h
  exact h.1.1.1.1

theorem Layout.total_le (L : Layout) : L.total ≤ 64 := by
  have h := L.valid
  simp only [FieldSet.valid, FieldSet.totalFits, Bool.and_eq_true, decide_eq_true_eq] at h
  exact h.1.1.2

theorem Layout.width_mem (L : Layout) (w : Nat) (hw : w ∈ L.fields.widths) : 1 ≤ w ∧ w ≤ 64 := by
  have h := L.valid
  simp only [FieldSet.valid, FieldSet.widthsInRange, Bool.and_eq_true, List.all_eq_true,
    decide_eq_true_eq] at h
  exact h.1.1.1.2 w hw

theorem Layout.len_eq_getElem (L : Layout) (i : Nat) (h : i < L.n) : L.len i = L.fields.widths[i]'h :=
  List.getD_eq_getElem _ _ h

theorem Layout.len_mem (L : Layout) (i : Nat) (h : i < L.n) : L.len i ∈ L.fields.widths := by
  rw [L.len_eq_getElem i h]
  exact List.getElem_mem _

@[simp] theorem Layout.offset_zero (L : Layout) : L.offset 0 = 0 := by simp [Layout.offset]

theorem Layout.offset_succ (L : Layout) (i : Nat) (h : i < L.n) : L.offset (i + 1) = L.offset i + L.len i := by
  rw [L.len_eq_getElem i h]
  simp only [Layout.offset]
  rw [List.take_add_one, List.getElem?_eq_getElem h]
  simp

theorem Layout.offset_n (L : Layout) : L.offset L.n = L.total := by
  simp [Layout.offset, Layout.n, Layout.total]

theorem Layout.offset_mono (L : Layout) (i j : Nat) (hij : i ≤ j) (hj : j ≤ L.n) :
    L.offset i ≤ L.offset j := by
  induction j with
  | zero => simp_all
  | succ j ih =>
    rcases Nat.lt_or_ge i (j + 1) with h | h
    · have := ih (by omega) (by omega)
      have := L.offset_succ j (by omega)
      omega
    · have : i = j + 1 := by omega
      simp [this]

theorem Layout.field_end_le_total (L : Layout) (i : Nat) (h : i < L.n) : L.offset i + L.len i ≤ L.total := by
  rw [← L.offset_succ i h, ← L.offset_n]
  exact L.offset_mono _ _ h (Nat.le_refl _)

theorem le_storageWidth (t : Nat) (h : t ≤ 64) : t ≤ storageWidth t := by
  unfold storageWidth
  split
  · assumption
  · split
    · assumption
    · split <;> assumption

theorem storageWidth_le (t : Nat) : storageWidth t ≤ 64 := by
  unfold storageWidth
  split
  · omega
  · split
    · omega
    · split <;> omega

theorem Layout.total_le_sw (L : Layout) : L.total ≤ L.sw := le_storageWidth _ L.total_le

theorem Layout.sw_le (L : Layout) : L.sw ≤ 64 := storageWidth_le _

/-- A field lies inside STORE. -/
theorem Layout.field_end_le_sw (L : Layout) (i : Nat) (h : i < L.n) : L.offset i + L.len i ≤ L.sw :=
  Nat.le_trans (L.field_end_le_total i h) L.total_le_sw

/-- The fields of smaller index lie below. -/
theorem Layout.field_end_le_offset (L : Layout) (i j : Nat) (hij : i < j) (hj : j < L.n) :
    L.offset i + L.len i ≤ L.offset j := by
  rw [← L.offset_succ i (by omega)]
  exact L.offset_mono _ _ hij (by omega)

theorem Layout.mask_getLsbD (L : Layout) (i k : Nat) :
    (L.mask i).getLsbD k = decide (k < L.sw ∧ k < L.len i) := by
  simp only [Layout.mask, Layout.allOnes, BitVec.getLsbD_not, BitVec.getLsbD_shiftLeft,
    BitVec.getLsbD_allOnes]
  by_cases hk : k < L.sw <;> by_cases hl : k < L.len i <;> simp [hk, hl]
  omega

theorem Layout.fmask_getLsbD (L : Layout) (i k : Nat) :
    (L.fmask i).getLsbD k = decide (k < L.sw ∧ L.offset i ≤ k ∧ k < L.offset i + L.len i) := by
  simp only [Layout.fmask, BitVec.getLsbD_shiftLeft, Layout.mask_getLsbD, ← decide_not,
    ← Bool.decide_and]
  congr 1
  apply propext
  omega

namespace Machine

@[simp] theorem validIndex_iff (L : Layout) (i : Nat) : validIndex L i = true ↔ i < L.n := by
  simp [validIndex]

theorem truncField_getLsbD (L : Layout) (v : Word) (i k : Nat) (h : i < L.n) :
    (truncField L v i).getLsbD k = (v.getLsbD k && decide (k < L.len i)) := by
  have h1 := L.field_end_le_sw i h
  have h2 := L.sw_le
  simp only [truncField, Layout.mask64, BitVec.getLsbD_and, BitVec.getLsbD_setWidth,
    Layout.mask_getLsbD]
  by_cases hl : k < L.len i
  · have a : k < 64 := by omega
    have b : k < L.sw := by omega
    simp [a, b, hl]
  · simp [hl]

/-- A value has no one-bit at or above `w` exactly if it is below 2^w. -/
theorem forall_getLsbD_iff_lt (v : Word) (w : Nat) :
    (∀ k, w ≤ k → v.getLsbD k = false) ↔ v.toNat < 2 ^ w := by
  constructor
  · intro h
    apply Nat.lt_pow_two_of_testBit
    intro k hk
    rw [BitVec.testBit_toNat]
    exact h k hk
  · intro h k hk
    rw [← BitVec.testBit_toNat]
    exact Nat.testBit_lt_two_pow (Nat.lt_of_lt_of_le h (Nat.pow_le_pow_right (by omega) hk))

/-- SET's overflow check is the comparison with 2^LENGTH. -/
theorem fieldOvf_eq (L : Layout) (v : Word) (i : Nat) (h : i < L.n) :
    fieldOvf L v i = decide (2 ^ L.len i ≤ v.toNat) := by
  rw [Bool.eq_iff_iff, decide_eq_true_eq, fieldOvf, bne_iff_ne, ne_eq, ← Nat.not_lt, not_iff_not,
    ← forall_getLsbD_iff_lt]
  constructor
  · intro e k hk
    rw [← e, truncField_getLsbD _ _ _ _ h]
    simp [Nat.not_lt.mpr hk]
  · intro e
    apply BitVec.eq_of_getLsbD_eq
    intro k _
    rw [truncField_getLsbD _ _ _ _ h]
    by_cases hl : k < L.len i
    · simp [hl]
    · simp [hl, e k (by omega)]

/-- LOAD's check is the comparison with 2^TOTAL. -/
theorem wordOvf_eq (L : Layout) (v : Word) : wordOvf L v = decide (2 ^ L.total ≤ v.toNat) := by
  rw [Bool.eq_iff_iff, decide_eq_true_eq, wordOvf, bne_iff_ne, ne_eq, ← Nat.not_lt, not_iff_not,
    ← BitVec.toNat_inj]
  simp [BitVec.toNat_ushiftRight, Nat.shiftRight_eq_div_pow, Nat.div_eq_zero_iff]

end Machine

end Sys2Proof
end

