-- ==== Sys2Proof/Laws/State.lean ====
section
/-! SUPPORT. One lemma per field per update of the state, so that no later proof unfolds a record
update. -/

namespace Sys2Proof.Machine

@[simp] theorem writeStore_layout (s : State) (w : BitVec s.layout.sw) : (writeStore s w).layout = s.layout := rfl
@[simp] theorem writeStore_store (s : State) (w : BitVec s.layout.sw) : (writeStore s w).store = w := rfl
@[simp] theorem writeStore_status (s : State) (w : BitVec s.layout.sw) : (writeStore s w).status = s.status := rfl
@[simp] theorem writeStore_rspValid (s : State) (w : BitVec s.layout.sw) : (writeStore s w).rspValid = s.rspValid := rfl
@[simp] theorem writeStore_rspErr (s : State) (w : BitVec s.layout.sw) : (writeStore s w).rspErr = s.rspErr := rfl
@[simp] theorem writeStore_rspData (s : State) (w : BitVec s.layout.sw) : (writeStore s w).rspData = s.rspData := rfl
@[simp] theorem writeStore_inputs (s : State) (w : BitVec s.layout.sw) : (writeStore s w).inputs = s.inputs := rfl

@[simp] theorem respond_layout (e : ErrCode) (d : Word) (s : State) : (respond e d s).layout = s.layout := rfl
@[simp] theorem respond_store (e : ErrCode) (d : Word) (s : State) : (respond e d s).store = s.store := rfl
@[simp] theorem respond_status (e : ErrCode) (d : Word) (s : State) : (respond e d s).status = s.status := rfl
@[simp] theorem respond_rspValid (e : ErrCode) (d : Word) (s : State) : (respond e d s).rspValid = true := rfl
@[simp] theorem respond_rspErr (e : ErrCode) (d : Word) (s : State) : (respond e d s).rspErr = e := rfl
@[simp] theorem respond_rspData (e : ErrCode) (d : Word) (s : State) : (respond e d s).rspData = d := rfl
@[simp] theorem respond_inputs (e : ErrCode) (d : Word) (s : State) : (respond e d s).inputs = s.inputs := rfl

@[simp] theorem raise_layout (e : RunError) (s : State) : (raise e s).layout = s.layout := rfl
@[simp] theorem raise_store (e : RunError) (s : State) : (raise e s).store = s.store := rfl
@[simp] theorem raise_status (e : RunError) (s : State) : (raise e s).status = statusWith e s.status := rfl
@[simp] theorem raise_rspValid (e : RunError) (s : State) : (raise e s).rspValid = true := rfl
@[simp] theorem raise_rspErr (e : RunError) (s : State) : (raise e s).rspErr = e.errCode := rfl
@[simp] theorem raise_rspData (e : RunError) (s : State) : (raise e s).rspData = 0 := rfl
@[simp] theorem raise_inputs (e : RunError) (s : State) : (raise e s).inputs = s.inputs := rfl

@[simp] theorem resetFor_layout (L : Layout) : (State.resetFor L).layout = L := rfl
@[simp] theorem resetFor_store (L : Layout) : (State.resetFor L).store = (0 : BitVec L.sw) := rfl
@[simp] theorem resetFor_status (L : Layout) : (State.resetFor L).status = 0 := rfl
@[simp] theorem resetFor_rspValid (L : Layout) : (State.resetFor L).rspValid = false := rfl
@[simp] theorem resetFor_rspErr (L : Layout) : (State.resetFor L).rspErr = .ok := rfl
@[simp] theorem resetFor_rspData (L : Layout) : (State.resetFor L).rspData = 0 := rfl
@[simp] theorem resetFor_inputs (L : Layout) : (State.resetFor L).inputs = [] := rfl

@[simp] theorem resetEdge_layout (s : State) : (resetEdge s).layout = s.layout := rfl
@[simp] theorem resetEdge_store (s : State) : (resetEdge s).store = (0 : BitVec s.layout.sw) := rfl
@[simp] theorem resetEdge_status (s : State) : (resetEdge s).status = 0 := rfl
@[simp] theorem resetEdge_rspValid (s : State) : (resetEdge s).rspValid = false := rfl
@[simp] theorem resetEdge_rspErr (s : State) : (resetEdge s).rspErr = .ok := rfl
@[simp] theorem resetEdge_rspData (s : State) : (resetEdge s).rspData = 0 := rfl
@[simp] theorem resetEdge_inputs (s : State) : (resetEdge s).inputs = s.inputs := rfl

@[simp] theorem idleEdge_layout (s : State) : (idleEdge s).layout = s.layout := rfl
@[simp] theorem idleEdge_store (s : State) : (idleEdge s).store = s.store := rfl
@[simp] theorem idleEdge_status (s : State) : (idleEdge s).status = s.status := rfl
@[simp] theorem idleEdge_rspValid (s : State) : (idleEdge s).rspValid = false := rfl
@[simp] theorem idleEdge_rspErr (s : State) : (idleEdge s).rspErr = s.rspErr := rfl
@[simp] theorem idleEdge_rspData (s : State) : (idleEdge s).rspData = s.rspData := rfl
@[simp] theorem idleEdge_inputs (s : State) : (idleEdge s).inputs = s.inputs := rfl

@[simp] theorem dropInput_layout (s : State) : (dropInput s).layout = s.layout := rfl
@[simp] theorem dropInput_store (s : State) : (dropInput s).store = s.store := rfl
@[simp] theorem dropInput_status (s : State) : (dropInput s).status = s.status := rfl
@[simp] theorem dropInput_rspValid (s : State) : (dropInput s).rspValid = s.rspValid := rfl
@[simp] theorem dropInput_rspErr (s : State) : (dropInput s).rspErr = s.rspErr := rfl
@[simp] theorem dropInput_rspData (s : State) : (dropInput s).rspData = s.rspData := rfl
@[simp] theorem dropInput_inputs (s : State) : (dropInput s).inputs = s.inputs.tail := rfl

@[simp] theorem presentNext_layout (p : PortInput) (s : State) : (presentNext p s).layout = s.layout := rfl
@[simp] theorem presentNext_store (p : PortInput) (s : State) : (presentNext p s).store = s.store := rfl
@[simp] theorem presentNext_status (p : PortInput) (s : State) : (presentNext p s).status = s.status := rfl
@[simp] theorem presentNext_inputs (p : PortInput) (s : State) : (presentNext p s).inputs = p :: s.inputs.tail := rfl

@[simp] theorem nextInput_presentNext (p : PortInput) (s : State) : nextInput (presentNext p s) = p := rfl

@[simp] theorem statusO_eq (s : State) : statusO s = s.status := rfl
@[simp] theorem wordO_eq (s : State) : wordO s = s.store := rfl
@[simp] theorem rdataO_eq (s : State) : rdataO s = s.rspData := rfl
@[simp] theorem rspValidO_eq (s : State) : rspValidO s = s.rspValid := rfl

end Sys2Proof.Machine
end

