-- ==== Sys2Proof/Laws/Ops.lean ====
section
/-! SUPPORT. One lemma per shared operation that says everything it can do, and the inversion of an
accepted command and of a clock edge. -/

namespace Sys2Proof.Machine

/-- EXTRACT, bit by bit. -/
theorem extract_getLsbD (L : Layout) (s : BitVec L.sw) (i k : Nat) :
    (extract L s i).getLsbD k = (decide (k < L.sw ∧ k < L.len i) && s.getLsbD (L.offset i + k)) := by
  simp only [extract, BitVec.getLsbD_and, BitVec.getLsbD_ushiftRight, Layout.mask_getLsbD]
  rw [Bool.and_comm]

/-- INSERT, bit by bit, whatever the value. -/
theorem insert_getLsbD (L : Layout) (s : BitVec L.sw) (i : Nat) (t : Word) (k : Nat) (h : i < L.n)
    (hk : k < L.sw) :
    (insert L s i t).getLsbD k =
      if L.offset i ≤ k ∧ k < L.offset i + L.len i then t.getLsbD (k - L.offset i) else s.getLsbD k := by
  have h1 := L.field_end_le_sw i h
  simp only [insert, BitVec.getLsbD_or, BitVec.getLsbD_and, BitVec.getLsbD_not, BitVec.getLsbD_shiftLeft,
    BitVec.getLsbD_setWidth, Layout.mask_getLsbD, Layout.fmask_getLsbD]
  by_cases ha : L.offset i ≤ k
  · by_cases hb : k < L.offset i + L.len i
    · have c : k - L.offset i < L.sw := by omega
      have d : k - L.offset i < L.len i := by omega
      simp [ha, hb, hk, c, d, Nat.not_lt.mpr ha]
    · have d : ¬ (k - L.offset i < L.len i) := by omega
      simp [ha, hb, hk, d]
  · have e : k < L.offset i := by omega
    simp [ha, hk, e]

/-- The index check passes a field of the layout on. -/
theorem withField_of_lt (i : Nat) (s : State) (run : State → State) (h : i < s.layout.n) :
    withField i s run = run s := by
  simp [withField, h]

/-- The index check answers every other index with BADIDX. -/
theorem withField_of_ge (i : Nat) (s : State) (run : State → State) (h : s.layout.n ≤ i) :
    withField i s run = raise .badidx s := by
  simp [withField, Nat.not_lt.mpr h]

/-- How one accepted command can change the state: an error, a result, or a write of STORE. -/
inductive CommandResult (s : State) : State → Prop where
  | error (e : RunError) : CommandResult s (raise e s)
  | result (d : Word) : CommandResult s (respond .ok d s)
  | write (w : BitVec s.layout.sw) (hw : s.store >>> s.layout.total = 0 → w >>> s.layout.total = 0) :
      CommandResult s (respond .ok 0 (writeStore s w))

theorem insert_keeps_padding (L : Layout) (s : BitVec L.sw) (i : Nat) (t : Word) (h : i < L.n)
    (hs : s >>> L.total = 0) : insert L s i t >>> L.total = 0 := by
  apply BitVec.eq_of_getLsbD_eq
  intro k _
  have h1 := L.field_end_le_total i h
  have hb : s.getLsbD (L.total + k) = false := by
    have := congrArg (fun b => BitVec.getLsbD b k) hs
    simpa using this
  rw [BitVec.getLsbD_ushiftRight]
  by_cases hk : L.total + k < L.sw
  · rw [insert_getLsbD _ _ _ _ _ h hk, if_neg (by omega), hb]
    simp
  · rw [BitVec.getLsbD_of_ge _ _ (by omega)]
    simp

theorem load_keeps_padding (L : Layout) (v : Word) (h : wordOvf L v = false) :
    (v.setWidth L.sw) >>> L.total = 0 := by
  apply BitVec.eq_of_getLsbD_eq
  intro k _
  rw [wordOvf_eq, decide_eq_false_iff_not, Nat.not_le, ← forall_getLsbD_iff_lt] at h
  simp [BitVec.getLsbD_ushiftRight, BitVec.getLsbD_setWidth, h (L.total + k) (by omega)]

/-- Every instruction answers a next state, of one of the three shapes. -/
theorem exec_result (i : Instr) (s : State) : ∃ t, exec i s = .next t ∧ CommandResult s t := by
  cases i with
  | nop => exact ⟨_, rfl, .result 0⟩
  | get i =>
    refine ⟨_, rfl, ?_⟩
    rcases Nat.lt_or_ge i s.layout.n with h | h
    · rw [withField_of_lt _ _ _ h]
      exact .result _
    · rw [withField_of_ge _ _ _ h]
      exact .error _
  | set i v =>
    refine ⟨_, rfl, ?_⟩
    rcases Nat.lt_or_ge i s.layout.n with h | h
    · rw [withField_of_lt _ _ _ h]
      split
      · exact .error _
      · exact .write _ (insert_keeps_padding _ _ _ _ h)
    · rw [withField_of_ge _ _ _ h]
      exact .error _
  | setb i b =>
    refine ⟨_, rfl, ?_⟩
    rcases Nat.lt_or_ge i s.layout.n with h | h
    · rw [withField_of_lt _ _ _ h]
      exact .write _ (insert_keeps_padding _ _ _ _ h)
    · rw [withField_of_ge _ _ _ h]
      exact .error _
  | load v =>
    refine ⟨_, rfl, ?_⟩
    split
    · exact .error _
    · next h => exact .write _ fun _ => load_keeps_padding _ _ (by simpa using h)
  | query i =>
    refine ⟨_, rfl, ?_⟩
    rcases Nat.lt_or_ge i s.layout.n with h | h
    · rw [withField_of_lt _ _ _ h]
      exact .result _
    · rw [withField_of_ge _ _ _ h]
      exact .error _
  | rdword => exact ⟨_, rfl, .result _⟩

/-- Every accepted command answers a next state, of one of the three shapes. -/
theorem acceptCommand_result (c : Command) (s : State) :
    ∃ t, acceptCommand c s = .next t ∧ CommandResult s t := by
  unfold acceptCommand
  split
  · exact ⟨_, rfl, .error _⟩
  · exact exec_result _ _

/-- What one clock edge can do. -/
inductive EdgeResult (p : PortInput) (s : State) : State → Prop where
  | reset (h : p.rst = true) : EdgeResult p s (resetEdge s)
  | idle (h : p.rst = false) (hv : p.cmdValid = false) : EdgeResult p s (idleEdge s)
  | command (t : State) (h : p.rst = false) (hv : p.cmdValid = true)
      (ha : acceptCommand p.command s = .next t) (hr : CommandResult s t) : EdgeResult p s t

/-- Every clock edge answers a next state. -/
theorem clockEdge_result (p : PortInput) (s : State) :
    ∃ t, clockEdge p s = .next t ∧ EdgeResult p s t := by
  unfold clockEdge
  cases hr : p.rst with
  | true => exact ⟨_, rfl, .reset hr⟩
  | false =>
    cases hv : p.cmdValid with
    | false => exact ⟨_, rfl, .idle hr hv⟩
    | true =>
      obtain ⟨t, ht, hc⟩ := acceptCommand_result p.command s
      exact ⟨t, by simpa using ht, .command t hr hv ht hc⟩

end Sys2Proof.Machine
end

