-- ==== Sys2Proof/Laws/Exec.lean ====
section
/-! SUPPORT. What each meaning answers, case by case, and an accepted command by its opcode. -/

namespace Sys2Proof.Machine

theorem exec_nop (s : State) : exec .nop s = .next (respond .ok 0 s) := rfl

theorem exec_rdword (s : State) : exec .rdword s = .next (respond .ok (storeValue s) s) := rfl

theorem exec_get_of_lt (i : Nat) (s : State) (h : i < s.layout.n) :
    exec (.get i) s = .next (respond .ok (fieldValue s i) s) := by
  simp only [exec, execGet, withField_of_lt _ _ _ h, fieldValue]

theorem exec_get_of_ge (i : Nat) (s : State) (h : s.layout.n ≤ i) :
    exec (.get i) s = .next (raise .badidx s) := by
  simp only [exec, execGet, withField_of_ge _ _ _ h]

theorem exec_set_of_ge (i : Nat) (v : Word) (s : State) (h : s.layout.n ≤ i) :
    exec (.set i v) s = .next (raise .badidx s) := by
  simp only [exec, execSet, withField_of_ge _ _ _ h]

theorem exec_set_of_wide (i : Nat) (v : Word) (s : State) (h : i < s.layout.n)
    (hv : 2 ^ s.layout.len i ≤ v.toNat) : exec (.set i v) s = .next (raise .ovf s) := by
  simp only [exec, execSet, withField_of_lt _ _ _ h, fieldOvf_eq _ _ _ h, hv, decide_true, if_true]

theorem exec_set_of_fits (i : Nat) (v : Word) (s : State) (h : i < s.layout.n)
    (hv : v.toNat < 2 ^ s.layout.len i) :
    exec (.set i v) s = .next (respond .ok 0 (writeStore s (insert s.layout s.store i v))) := by
  have : ¬ 2 ^ s.layout.len i ≤ v.toNat := by omega
  simp only [exec, execSet, withField_of_lt _ _ _ h, fieldOvf_eq _ _ _ h, this, decide_false]
  rfl

theorem exec_setb_of_ge (i : Nat) (b : Bool) (s : State) (h : s.layout.n ≤ i) :
    exec (.setb i b) s = .next (raise .badidx s) := by
  simp only [exec, execSetb, withField_of_ge _ _ _ h]

theorem exec_setb_of_lt (i : Nat) (b : Bool) (s : State) (h : i < s.layout.n) :
    exec (.setb i b) s =
      .next (respond .ok 0 (writeStore s (insert s.layout s.store i (boolWord b)))) := by
  simp only [exec, execSetb, withField_of_lt _ _ _ h]

theorem exec_load_of_wide (v : Word) (s : State) (hv : 2 ^ s.layout.total ≤ v.toNat) :
    exec (.load v) s = .next (raise .ovf s) := by
  simp only [exec, execLoad, wordOvf_eq, hv, decide_true, if_true]

theorem exec_load_of_fits (v : Word) (s : State) (hv : v.toNat < 2 ^ s.layout.total) :
    exec (.load v) s = .next (respond .ok 0 (writeStore s (v.setWidth s.layout.sw))) := by
  have : ¬ 2 ^ s.layout.total ≤ v.toNat := by omega
  simp only [exec, execLoad, wordOvf_eq, this, decide_false]
  rfl

theorem exec_query_of_lt (i : Nat) (s : State) (h : i < s.layout.n) :
    exec (.query i) s = .next (respond .ok (queryWord s.layout i) s) := by
  simp only [exec, execQuery, withField_of_lt _ _ _ h]

theorem exec_query_of_ge (i : Nat) (s : State) (h : s.layout.n ≤ i) :
    exec (.query i) s = .next (raise .badidx s) := by
  simp only [exec, execQuery, withField_of_ge _ _ _ h]

/-- An accepted command by its opcode. -/
theorem acceptCommand_byOpcode (c : Command) (s : State) :
    acceptCommand c s =
      if 512 ≤ c.cmd.toNat then .next (raise .illegal s)
      else if c.cmd.toNat % 8 = 0 then exec .nop s
      else if c.cmd.toNat % 8 = 1 then exec (.get (c.cmd.toNat / 8)) s
      else if c.cmd.toNat % 8 = 2 then exec (.set (c.cmd.toNat / 8) c.wdata) s
      else if c.cmd.toNat % 8 = 3 then exec (.setb (c.cmd.toNat / 8) (c.wdata.getLsbD 0)) s
      else if c.cmd.toNat % 8 = 4 then exec (.load c.wdata) s
      else if c.cmd.toNat % 8 = 5 then exec (.query (c.cmd.toNat / 8)) s
      else if c.cmd.toNat % 8 = 6 then exec .rdword s
      else .next (raise .illegal s) := by
  unfold acceptCommand
  by_cases h : 512 ≤ c.cmd.toNat
  · rw [decode_reservedBits c h, if_pos h]
  · rw [decode_byOpcode c (by omega), if_neg h]
    split_ifs <;> rfl

/-- No meaning reads RSP_VALID or the schedule: other values of them change nothing else. -/
theorem exec_frame (i : Instr) (s : State) (rv : Bool) (ps : List PortInput) :
    ∃ t, exec i s = .next t ∧ exec i { s with rspValid := rv, inputs := ps } = .next { t with inputs := ps } := by
  cases i with
  | nop => exact ⟨_, rfl, rfl⟩
  | rdword => exact ⟨_, rfl, rfl⟩
  | get i =>
    rcases Nat.lt_or_ge i s.layout.n with h | h
    · exact ⟨_, exec_get_of_lt _ _ h, exec_get_of_lt _ _ h⟩
    · exact ⟨_, exec_get_of_ge _ _ h, exec_get_of_ge _ _ h⟩
  | query i =>
    rcases Nat.lt_or_ge i s.layout.n with h | h
    · exact ⟨_, exec_query_of_lt _ _ h, exec_query_of_lt _ _ h⟩
    · exact ⟨_, exec_query_of_ge _ _ h, exec_query_of_ge _ _ h⟩
  | setb i b =>
    rcases Nat.lt_or_ge i s.layout.n with h | h
    · exact ⟨_, exec_setb_of_lt _ _ _ h, exec_setb_of_lt _ _ _ h⟩
    · exact ⟨_, exec_setb_of_ge _ _ _ h, exec_setb_of_ge _ _ _ h⟩
  | set i v =>
    rcases Nat.lt_or_ge i s.layout.n with h | h
    · rcases Nat.lt_or_ge v.toNat (2 ^ s.layout.len i) with hv | hv
      · exact ⟨_, exec_set_of_fits _ _ _ h hv, exec_set_of_fits _ _ _ h hv⟩
      · exact ⟨_, exec_set_of_wide _ _ _ h hv, exec_set_of_wide _ _ _ h hv⟩
    · exact ⟨_, exec_set_of_ge _ _ _ h, exec_set_of_ge _ _ _ h⟩
  | load v =>
    rcases Nat.lt_or_ge v.toNat (2 ^ s.layout.total) with hv | hv
    · exact ⟨_, exec_load_of_fits _ _ hv, exec_load_of_fits _ _ hv⟩
    · exact ⟨_, exec_load_of_wide _ _ hv, exec_load_of_wide _ _ hv⟩

/-- The same of an accepted command. -/
theorem acceptCommand_frame (c : Command) (s : State) (rv : Bool) (ps : List PortInput) :
    ∃ t, acceptCommand c s = .next t ∧
      acceptCommand c { s with rspValid := rv, inputs := ps } = .next { t with inputs := ps } := by
  unfold acceptCommand
  cases decode c with
  | error r => exact ⟨_, rfl, rfl⟩
  | ok i => exact exec_frame i s rv ps

/-- A command of the encoder, accepted, is its instruction. -/
theorem acceptCommand_encode (i : Instr) (s : State) (h : decode (encode i) = .ok i) :
    acceptCommand (encode i) s = exec i s := by
  simp only [acceptCommand, h]

end Sys2Proof.Machine
end

