-- ==== Sys2Proof/Laws/PerInstr.lean ====
section
/-! SUPPORT. Families of facts about an instruction as syntax, one lemma per constructor (LAWS.json). -/

namespace Sys2Proof.Laws.MatchesRow

/-- The encoder puts the instruction into its own row of the opcode table and into no other
(30_encoding.md R38, R39). -/
def Statement (i : Instr) : Prop :=
  i.wf = true → (opcodeRows.filter fun r => r.covers (encode i).cmd).map (·.mnemonic) = [i.mnemonic]

theorem fidx_cases (P : Nat → Prop) (k : Nat) (hk : fidxFits k = true) (h : ∀ j : Fin 64, P j) : P k :=
  h ⟨k, by simpa [fidxFits] using hk⟩

theorem nop : Statement .nop := fun _ => by decide

theorem get (fidx : Nat) : Statement (.get fidx) := fun hw =>
  fidx_cases (fun k => (opcodeRows.filter fun r => r.covers (cmdWord k 1)).map (·.mnemonic) = ["GET"]) fidx hw
    (by decide)

theorem set (fidx : Nat) (value : Word) : Statement (.set fidx value) := fun hw =>
  fidx_cases (fun k => (opcodeRows.filter fun r => r.covers (cmdWord k 2)).map (·.mnemonic) = ["SET"]) fidx hw
    (by decide)

theorem setb (fidx : Nat) (bit : Bool) : Statement (.setb fidx bit) := fun hw =>
  fidx_cases (fun k => (opcodeRows.filter fun r => r.covers (cmdWord k 3)).map (·.mnemonic) = ["SETB"]) fidx hw
    (by decide)

theorem load (word : Word) : Statement (.load word) := fun _ =>
  show (opcodeRows.filter fun r => r.covers (cmdWord 0 4)).map (·.mnemonic) = ["LOAD"] by decide

theorem query (fidx : Nat) : Statement (.query fidx) := fun hw =>
  fidx_cases (fun k => (opcodeRows.filter fun r => r.covers (cmdWord k 5)).map (·.mnemonic) = ["QUERY"]) fidx hw
    (by decide)

theorem rdword : Statement .rdword := fun _ => by decide

end Sys2Proof.Laws.MatchesRow
end

