-- ==== Sys2Proof/Tests/Slice0.lean ====
section
/-! SUPPORT. Tests: the smoke tests of WellFormed and of the elaboration checks, words written out from the
encoding, vectors of 95_test_vectors.md (each named in its comment), and for every statement with hypotheses
a witness that meets them. -/

namespace Sys2Proof.Tests

open Sys2Proof.Machine

/-! ## Layouts and helpers -/

/-- A:1, B:2, C:3 (95, layout L1). -/
def lay1 : Layout := { fields := { widths := [1, 2, 3], names := some ["A", "B", "C"] }, valid := by decide }

/-- FOO:64 (95, layout L2). -/
def lay2 : Layout := { fields := { widths := [64], names := some ["FOO"] }, valid := by decide }

/-- X:8, Y:1 (95, layout L4). -/
def lay4 : Layout := { fields := { widths := [8, 1], names := none }, valid := by decide }

/-- H:32, L:32 (95, layout L5). -/
def lay5 : Layout := { fields := { widths := [32, 32], names := some ["H", "L"] }, valid := by decide }

/-- 64 fields of one bit (95, layout L6). -/
def lay6 : Layout := { fields := { widths := List.replicate 64 1, names := none }, valid := by decide }

/-- A BFU of layout `L` with STORE `w` and STATUS 000. -/
def bfu (L : Layout) (w : Nat) : State := { State.resetFor L with store := BitVec.ofNat L.sw w }

/-- The response, STORE and STATUS of a next state. -/
def report (o : Host.Outcome State Fault Refusal) : Option (ErrCode × Word × Nat × BitVec 3) :=
  match o with
  | .next t => some (t.rspErr, t.rspData, t.store.toNat, t.status)
  | .fault _ => none
  | .refused _ => none

/-! ## Smoke tests: each check refuses an ill-formed term -/

theorem test_wf_get_refuses : (Instr.get 64).wf = false := by decide
theorem test_wf_set_refuses : (Instr.set 64 0).wf = false := by decide
theorem test_wf_setb_refuses : (Instr.setb 64 true).wf = false := by decide
theorem test_wf_query_refuses : (Instr.query 64).wf = false := by decide
theorem test_wf_accepts_beyond_layout : (Instr.get 63).wf = true := by decide

/-- V-DEF-01 -/
theorem test_elaborate_refuses_no_fields :
    elaborate { widths := [], names := none } = .error .noFields := by decide
/-- V-DEF-02 -/
theorem test_elaborate_refuses_width_zero :
    elaborate { widths := [0], names := none } = .error .widthRange := by decide
/-- V-DEF-03 -/
theorem test_elaborate_refuses_width_65 :
    elaborate { widths := [65], names := none } = .error .widthRange := by decide
/-- V-DEF-04 -/
theorem test_elaborate_refuses_total_65 :
    elaborate { widths := [64, 1], names := none } = .error .totalTooWide := by decide
/-- V-DEF-06 -/
theorem test_elaborate_refuses_name_count :
    elaborate { widths := [1, 2], names := some ["A", "B", "C"] } = .error .nameCount := by decide
/-- V-DEF-07 -/
theorem test_elaborate_refuses_repeated_name :
    elaborate { widths := [1, 2], names := some ["A", "A"] } = .error .nameRepeated := by decide

/-! ## Decoding: words written out from format C16 (R38, R39) -/

theorem test_decode_nop : decode { cmd := 0b0000000000000000, wdata := 7 } = .ok .nop := by decide
theorem test_decode_get : decode { cmd := 0b0000000100001001, wdata := 7 } = .ok (.get 33) := by decide
theorem test_decode_set : decode { cmd := 0b0000000100001010, wdata := 7 } = .ok (.set 33 7) := by decide
theorem test_decode_setb : decode { cmd := 0b0000000100001011, wdata := 7 } = .ok (.setb 33 true) := by decide
theorem test_decode_load : decode { cmd := 0b0000000100001100, wdata := 7 } = .ok (.load 7) := by decide
theorem test_decode_query : decode { cmd := 0b0000000100001101, wdata := 7 } = .ok (.query 33) := by decide
theorem test_decode_rdword : decode { cmd := 0b0000000100001110, wdata := 7 } = .ok .rdword := by decide
theorem test_decode_opcode_111 : decode { cmd := 0b0000000000000111, wdata := 0 } = .error .reservedOpcode := by decide
theorem test_decode_rsvd : decode { cmd := 0b1000000000000000, wdata := 0 } = .error .reservedBits := by decide

/-- CMD in the low 16 bits, WDATA above (log 7): SET of field 1 with 5. -/
theorem test_decodeTableWord : decodeTableWord 80 0x5000A = some (.set 1 5) := by decide
/-- The bits above `nbits` count as 0. -/
theorem test_decodeTableWord_short : decodeTableWord 16 0x5000A = some (.set 1 0) := by decide

/-! ## The layout -/

/-- V-LAY-09: fields 5, 27. -/
theorem test_masks :
    let L : Layout := { fields := { widths := [5, 27], names := none }, valid := by decide }
    (L.offset 1, L.total, L.sw, (L.mask 1).toNat, (L.fmask 0).toNat, (L.fmask 1).toNat)
      = (5, 32, 32, 0x07FFFFFF, 0x0000001F, 0xFFFFFFE0) := by decide

/-- V-MASK-64, V-LAY-02. -/
theorem test_mask_full_width : (lay2.mask 0).toNat = 0xFFFFFFFFFFFFFFFF := by decide

/-- W1: the storage ladder. -/
theorem test_storage_ladder :
    [1, 8, 9, 16, 17, 32, 33, 64].map storageWidth = [8, 8, 16, 16, 32, 32, 64, 64] := by decide

/-! ## The commands -/

/-- V-NOP-02 -/
theorem test_nop : report (acceptCommand { cmd := 0x01F8, wdata := 0 } (bfu lay1 0x25)) = some (.ok, 0, 0x25, 0) := by decide
/-- V-GET-03 -/
theorem test_get : report (acceptCommand { cmd := 0x0011, wdata := 0 } (bfu lay1 0x25)) = some (.ok, 4, 0x25, 0) := by decide
/-- V-GET-09 -/
theorem test_get_top_bit :
    report (acceptCommand { cmd := 0x01F9, wdata := 0 } (bfu lay6 0x8000000000000000))
      = some (.ok, 1, 0x8000000000000000, 0) := by decide
/-- V-SET-21 -/
theorem test_set :
    report (acceptCommand { cmd := 0x0002, wdata := 0x12345678 } (bfu lay5 0xDEADBEEF00000000))
      = some (.ok, 0, 0xDEADBEEF12345678, 0) := by decide
/-- V-SET-08 -/
theorem test_set_overflow :
    report (acceptCommand { cmd := 0x0012, wdata := 0x100 } (bfu lay1 0x00)) = some (.ovf, 0, 0x00, 0b001) := by decide
/-- V-SETB-02 -/
theorem test_setb : report (acceptCommand { cmd := 0x0013, wdata := 1 } (bfu lay1 0x3F)) = some (.ok, 0, 0x0F, 0) := by decide
/-- V-SETB-03 -/
theorem test_setb_even : report (acceptCommand { cmd := 0x0013, wdata := 2 } (bfu lay1 0x3F)) = some (.ok, 0, 0x07, 0) := by decide
/-- V-NOP-03 -/
theorem test_load : report (acceptCommand { cmd := 0x002C, wdata := 0x01 } (bfu lay1 0x25)) = some (.ok, 0, 0x01, 0) := by decide
/-- V-LD-08 -/
theorem test_load_padding :
    report (acceptCommand { cmd := 0x0004, wdata := 0x200 } (bfu lay4 0x01FF)) = some (.ovf, 0, 0x01FF, 0b001) := by decide
/-- V-QRY-03 -/
theorem test_query :
    report (acceptCommand { cmd := 0x0015, wdata := 0 } (bfu lay1 0)) = some (.ok, 0x0000000806030303, 0, 0) := by decide
/-- V-QRY-07 -/
theorem test_query_64_fields :
    report (acceptCommand { cmd := 0x01FD, wdata := 0 } (bfu lay6 0)) = some (.ok, 0x0000004040403F01, 0, 0) := by decide
/-- V-RW-02 -/
theorem test_rdword :
    report (acceptCommand { cmd := 0x0006, wdata := 0 } (bfu lay5 0xDEADBEEF12345678))
      = some (.ok, 0xDEADBEEF12345678, 0xDEADBEEF12345678, 0) := by decide

/-! ## Errors, priority, status -/

/-- V-GET-06: the sentinel. -/
theorem test_badidx : report (acceptCommand { cmd := 0x0019, wdata := 0 } (bfu lay1 0x25)) = some (.badidx, 0, 0x25, 0b010) := by decide
/-- V-SET-13: BADIDX beats OVF. -/
theorem test_badidx_before_ovf :
    report (acceptCommand { cmd := 0x001A, wdata := 0xFF } (bfu lay1 0)) = some (.badidx, 0, 0, 0b010) := by decide
/-- V-ILL-02: ILLEGAL beats BADIDX. -/
theorem test_illegal_before_badidx :
    report (acceptCommand { cmd := 0x001F, wdata := 0 } (bfu lay1 0)) = some (.illegal, 0, 0, 0b100) := by decide
/-- V-ILL-05: ILLEGAL beats OVF. -/
theorem test_illegal_before_ovf :
    report (acceptCommand { cmd := 0x0202, wdata := 0xFF } (bfu lay1 0)) = some (.illegal, 0, 0, 0b100) := by decide
/-- V-STS-03: CLEAR leaves STATUS. -/
theorem test_status_sticky :
    report (acceptCommand { cmd := 0x0004, wdata := 0 } { bfu lay1 0x25 with status := 0b111 })
      = some (.ok, 0, 0, 0b111) := by decide

/-! ## Edges -/

/-- V-RST-03: a command presented during reset is not accepted. -/
theorem test_reset_edge :
    report (clockEdge { rst := true, cmdValid := true, cmd := 0x0002, wdata := 1 } { bfu lay1 0x25 with status := 0b111 })
      = some (.ok, 0, 0, 0) := by decide
/-- V-TIM-02: an idle edge leaves the response standing. -/
theorem test_idle_edge :
    report (clockEdge { rst := false, cmdValid := false, cmd := 0x0002, wdata := 1 }
        { bfu lay1 0x25 with rspValid := true, rspErr := .ovf, rspData := 9 })
      = some (.ovf, 9, 0x25, 0) := by decide
/-- The first step after reset runs the word presented: QUERY 2, as V-QRY-03. -/
theorem test_step_from_reset :
    report (step (State.reset.withFetchWord 16 0x0015)) = some (.ok, 0x0000000806030303, 0, 0) := by decide

/-! ## The assembler -/

/-- P1, step 7, with a comment and in small letters. -/
theorem test_asm_setb : assembleText (some lay1) "setb C, true ; P1" = .ok { cmd := 0x0013, wdata := 1 } := by decide
/-- P2, step 6. -/
theorem test_asm_raw : assembleText none ".cmd 0x001A, 0xFF" = .ok { cmd := 0x001A, wdata := 0xFF } := by decide
/-- R46: a SET constant of 2^LENGTH is rejected. -/
theorem test_asm_rejects : assembleText (some lay1) "SET B, 4" = .error .valueTooWide := by decide
/-- R48: SETMAX computes the value from the layout. -/
theorem test_asm_setmax : assembleText (some lay1) "SETMAX C" = .ok { cmd := 0x0012, wdata := 7 } := by decide

/-! ## Witnesses: for every statement with hypotheses, states and operands that meet them -/

theorem witness_DecodeAfterEncodeIsIdentity : (Instr.set 63 5).wf = true := by decide

theorem witness_EncodeAfterDecodeKeepsUsedBits :
    decode { cmd := 0x01F8, wdata := 5 } = .ok .nop ∧ decode { cmd := 0x01FB, wdata := 3 } = .ok (.setb 63 true) := by decide

theorem witness_OperandAssembly : (0 : Nat) < 64 ∧ (63 : Nat) < 64 := by decide

/-- The legal and the illegal words of one opcode. -/
theorem witness_NopRespondsAndChangesNothing :
    (0x01F8#16).toNat % 8 = 0 ∧ (0x01F8#16).toNat < 512 ∧ (0x0200#16).toNat % 8 = 0 ∧ 512 ≤ (0x0200#16).toNat := by decide

/-- A field of lay1, its sentinel, and an illegal word. -/
theorem witness_GetReadsItsField :
    (0x0011#16).toNat % 8 = 1 ∧ (0x0011#16).toNat / 8 < (bfu lay1 0x25).layout.n ∧
    (0x0019#16).toNat % 8 = 1 ∧ (bfu lay1 0x25).layout.n ≤ (0x0019#16).toNat / 8 ∧
    (0x0201#16).toNat % 8 = 1 ∧ 512 ≤ (0x0201#16).toNat := by decide

/-- The greatest value that fits field 2 of lay1 and the least that does not. -/
theorem witness_SetWritesItsFieldOrOverflows :
    (0x0012#16).toNat % 8 = 2 ∧ (0x0012#16).toNat / 8 < (bfu lay1 0).layout.n ∧
    (7#64).toNat < 2 ^ (bfu lay1 0).layout.len 2 ∧ 2 ^ (bfu lay1 0).layout.len 2 ≤ (8#64).toNat ∧
    (0x001A#16).toNat % 8 = 2 ∧ (bfu lay1 0).layout.n ≤ (0x001A#16).toNat / 8 ∧
    (0x0202#16).toNat % 8 = 2 ∧ 512 ≤ (0x0202#16).toNat := by decide

theorem witness_SetbWritesItsBoolean :
    (0x0013#16).toNat % 8 = 3 ∧ (0x0013#16).toNat / 8 < (bfu lay1 0).layout.n ∧ true = (3#64).getLsbD 0 ∧
    (0x001B#16).toNat % 8 = 3 ∧ (bfu lay1 0).layout.n ≤ (0x001B#16).toNat / 8 ∧
    (0x0203#16).toNat % 8 = 3 ∧ 512 ≤ (0x0203#16).toNat := by decide

/-- The greatest word below 2^TOTAL of lay4 and the least that is not. -/
theorem witness_LoadWritesTheWordOrOverflows :
    (0x0004#16).toNat % 8 = 4 ∧ (0x01FF#64).toNat < 2 ^ (bfu lay4 0).layout.total ∧
    2 ^ (bfu lay4 0).layout.total ≤ (0x0200#64).toNat ∧
    (0x0204#16).toNat % 8 = 4 ∧ 512 ≤ (0x0204#16).toNat := by decide

theorem witness_QueryReportsTheLayout :
    (0x01FD#16).toNat % 8 = 5 ∧ (0x01FD#16).toNat / 8 < (bfu lay6 0).layout.n ∧
    (0x001D#16).toNat % 8 = 5 ∧ (bfu lay1 0).layout.n ≤ (0x001D#16).toNat / 8 ∧
    (0x0205#16).toNat % 8 = 5 ∧ 512 ≤ (0x0205#16).toNat := by decide

theorem witness_RdwordReadsTheWord :
    (0x0006#16).toNat % 8 = 6 ∧ paddingZero (bfu lay1 0x3F) ∧ ¬ paddingZero (bfu lay1 0x40) ∧
    (0x8006#16).toNat % 8 = 6 ∧ 512 ≤ (0x8006#16).toNat := by decide

theorem witness_IllegalWordsRaiseIllegal :
    512 ≤ (0x0200#16).toNat ∧ (0x01FF#16).toNat % 8 = 7 ∧ (0x01FF#16).toNat < 512 := by decide

/-- Each of the three errors. -/
theorem witness_AnErrorOnlyReportsItself :
    (∃ t, acceptCommand { cmd := 0x000A, wdata := 4 } (bfu lay1 0) = .next t ∧ t.rspErr = .ovf) ∧
    (∃ t, acceptCommand { cmd := 0x0019, wdata := 0 } (bfu lay1 0) = .next t ∧ t.rspErr = .badidx) ∧
    (∃ t, acceptCommand { cmd := 0x0007, wdata := 0 } (bfu lay1 0) = .next t ∧ t.rspErr = .illegal) :=
  ⟨⟨_, rfl, by decide⟩, ⟨_, rfl, by decide⟩, ⟨_, rfl, by decide⟩⟩

/-- A reset edge, an idle edge, an OK command and each error. -/
theorem witness_StatusBitsAreSticky :
    (∃ t, clockEdge { rst := true, cmdValid := true, cmd := 0x0007, wdata := 0 } { bfu lay1 0 with status := 7 } = .next t) ∧
    (∃ t, clockEdge PortInput.idle { bfu lay1 0 with status := 7 } = .next t) ∧
    (∃ t, clockEdge (PortInput.ofCommand (encode .rdword)) (bfu lay1 0) = .next t ∧ t.rspErr = .ok) ∧
    (∃ t, clockEdge (PortInput.ofCommand (encode (.set 1 4))) (bfu lay1 0) = .next t ∧ t.rspErr = .ovf) ∧
    (∃ t, clockEdge (PortInput.ofCommand (encode (.get 3))) (bfu lay1 0) = .next t ∧ t.rspErr = .badidx) ∧
    (∃ t, clockEdge { rst := false, cmdValid := true, cmd := 7, wdata := 0 } (bfu lay1 0) = .next t ∧ t.rspErr = .illegal) :=
  ⟨⟨_, rfl⟩, ⟨_, rfl⟩, ⟨_, rfl, by decide⟩, ⟨_, rfl, by decide⟩, ⟨_, rfl, by decide⟩, ⟨_, rfl, by decide⟩⟩

/-- An OK and an erring command at an edge outside reset. -/
theorem witness_ResponseFormat :
    (PortInput.ofCommand (encode (.get 3))).rst = false ∧ (PortInput.ofCommand (encode (.get 3))).cmdValid = true ∧
    (∃ t, clockEdge (PortInput.ofCommand (encode (.get 3))) (bfu lay1 0) = .next t ∧ rspErrO t ≠ 0b00) ∧
    (0x000A#16).toNat % 8 ∈ [0, 2, 3, 4, 7] :=
  ⟨rfl, rfl, ⟨_, rfl, by decide⟩, by decide⟩

theorem witness_OnlySetSetbLoadWriteStore :
    ∃ t, acceptCommand { cmd := 0x0012, wdata := 7 } (bfu lay1 0) = .next t ∧ storeValue t ≠ storeValue (bfu lay1 0) :=
  ⟨_, rfl, by decide⟩

theorem witness_ElaborationAcceptsExactlyValidFieldSets :
    elaborate lay1.fields = .ok lay1 ∧ elaborate { widths := [65], names := none } = .error .widthRange := by decide

theorem witness_OffsetsAreRunningSums : 63 < lay6.n ∧ 0 < lay2.n := by decide

theorem witness_MaskIsTwoToLengthMinusOne : 0 < lay2.n ∧ lay2.len 0 = lay2.sw ∧ 2 < lay1.n := by decide

theorem witness_PositionedMaskCoversTheField : 63 < lay6.n ∧ lay6.offset 63 = 63 := by decide

theorem witness_LayoutRangeLaws : 63 < lay6.n ∧ 0 < lay2.n := by decide

theorem witness_FieldsTileTheWord : 0 < lay5.n ∧ 1 < lay5.n ∧ (0 : Nat) ≠ 1 := by decide

theorem witness_OverflowDetectorChecksAllBits : 0 < lay2.n ∧ lay2.len 0 = 64 ∧ 2 < lay1.n := by decide

theorem witness_InsertWritesOnlyItsField : 1 < lay5.n := by decide

theorem witness_SetThenGetReturnsTheValue :
    2 < (bfu lay1 0x3F).layout.n ∧ (7#64).toNat < 2 ^ (bfu lay1 0x3F).layout.len 2 ∧
    2 ^ (bfu lay1 0x3F).layout.len 2 ≤ (8#64).toNat := by decide

theorem witness_FieldWritesLeaveOtherFieldsAlone : (0 : Nat) ≠ 1 ∧ 1 < (bfu lay1 0x3F).layout.n := by decide

theorem witness_FieldWritesCommuteAndLaterWins :
    1 < (bfu lay1 0).layout.n ∧ 2 < (bfu lay1 0).layout.n ∧ (3#64).toNat < 2 ^ (bfu lay1 0).layout.len 1 ∧
    (7#64).toNat < 2 ^ (bfu lay1 0).layout.len 2 := by decide

theorem witness_LoadIsASetOfEveryField :
    paddingZero (bfu lay1 0x3F) ∧ (0x25#64).toNat < 2 ^ (bfu lay1 0x3F).layout.total := by decide

theorem witness_RdwordThenLoadCopies : (bfu lay2 5).layout = (bfu lay2 9).layout ∧ paddingZero (bfu lay2 5) := by decide

theorem witness_ResetEdgeGivesTheResetState :
    ({ rst := true, cmdValid := true, cmd := 2, wdata := 1 } : PortInput).rst = true := rfl

theorem witness_ResetStateOfEveryLayout :
    ({ rst := true, cmdValid := false, cmd := 0, wdata := 0 } : PortInput).rst = true := rfl

theorem witness_FieldsReadZeroAfterReset : 2 < lay1.n := by decide

theorem witness_EdgeAcceptsWhatIsPresented :
    (PortInput.ofCommand (encode .nop)).rst = false ∧ (PortInput.ofCommand (encode .nop)).cmdValid = true ∧
    PortInput.idle.rst = false ∧ PortInput.idle.cmdValid = false ∧
    ({ PortInput.ofCommand (encode .nop) with rst := true } : PortInput).rst = true := by decide

theorem witness_StepRunsTheDecodedInstruction :
    ({ bfu lay1 0x25 with inputs := [PortInput.ofCommand (encode (.get 2))] } : State).inputs
      = PortInput.ofCommand (encode (.get 2)) :: [] ∧
    decode { cmd := 0x0011, wdata := 0 } = .ok (.get 2) ∧
    decodeTableWord 16 0x0011 = some (.get 2) ∧ State.reset.inputs = [] := by decide

theorem witness_EveryStepKeepsTheInvariant :
    Inv { bfu lay1 0x25 with inputs := [PortInput.ofCommand (encode (.set 2 8))] } ∧
    (∃ t, step { bfu lay1 0x25 with inputs := [PortInput.ofCommand (encode (.set 2 8))] } = .next t) :=
  ⟨by decide, ⟨_, rfl⟩⟩

theorem witness_IdleEdgesChangeNoResponse :
    ∀ p ∈ [PortInput.idle, PortInput.ofCommand (encode (.get 2))], p.rst = false := by decide

theorem witness_StepsRunTheScheduledProgram :
    ({ bfu lay1 0 with inputs := [PortInput.ofCommand (encode .nop), PortInput.idle] } : State).inputs
      = [encode .nop].map PortInput.ofCommand ++ [PortInput.idle] := by decide

theorem witness_HostReadModifyWriteIsNotAtomic :
    1 < (bfu lay1 0).layout.n ∧ (3#64).toNat < 2 ^ (bfu lay1 0).layout.len 1 ∧
    (2#64).toNat < 2 ^ (bfu lay1 0).layout.len 1 := by decide

theorem witness_AssembledCommandsNeverError :
    assemble (some (bfu lay1 0).layout) (.set (.name "C") 7) = .ok { cmd := 0x0012, wdata := 7 } := by decide

/-- Each bound of the assembler's checks from both sides: N, 2^LENGTH and 2^TOTAL; a name that stands in the
layout and one that does not. -/
theorem witness_AssemblerAcceptsExactlyWhatFits :
    assemble (some lay1) (.get (.index 2)) = .ok { cmd := 0x0011, wdata := 0 } ∧
    assemble (some lay1) (.get (.index 3)) = .error .indexBeyondLayout ∧
    assemble (some lay1) (.set (.name "B") 3) = .ok { cmd := 0x000A, wdata := 3 } ∧
    assemble (some lay1) (.set (.name "B") 4) = .error .valueTooWide ∧
    assemble (some lay1) (.load 63) = .ok { cmd := 0x0004, wdata := 63 } ∧
    assemble (some lay1) (.load 64) = .error .wordTooWide ∧
    assemble (some lay1) (.query (.name "D")) = .error .unknownName ∧
    assemble none (.get (.index 63)) = .ok { cmd := 0x01F9, wdata := 0 } ∧
    assemble none (.get (.index 64)) = .error .numberRange ∧
    assemble none (.raw 0xFFFF 0xFFFFFFFFFFFFFFFF) = .ok { cmd := 0xFFFF, wdata := 0xFFFFFFFFFFFFFFFF } ∧
    assemble none (.raw 0x10000 0) = .error .numberRange ∧
    assemble none (.raw 0 0x10000000000000000) = .error .numberRange := by decide

/-- The names of lay1, its first index that names no field, and a layout without names. -/
theorem witness_FieldNamesResolveToTheirIndex :
    lay1.fields.names = some ["A", "B", "C"] ∧ "D" ∉ ["A", "B", "C"] ∧ lay4.fields.names = none ∧
    2 < lay1.n ∧ lay1.n ≤ 3 := by decide

theorem witness_PseudoInstructionsMeanWhatTheySay :
    refersTo (bfu lay1 0).layout (.name "C") 2 ∧ refersTo (bfu lay2 0).layout (.index 0) 0 ∧
    (∀ i, ¬ refersTo lay1 (.name "D") i) ∧ (∀ i, ¬ refersTo lay1 (.index 3) i) :=
  ⟨⟨_, rfl, rfl⟩, ⟨rfl, by decide⟩, fun i ⟨ns, h, hi⟩ => by cases h; exact absurd (List.mem_of_getElem? hi) (by decide),
    fun i h => by cases h.1; exact absurd h.2 (by decide)⟩

end Sys2Proof.Tests
end

section
/-! PROOFS, family 10_state: what an edge and a command make of STATUS and of the response registers, and
what a command reads. -/

namespace Sys2Proof.Machine

/-! ### Error codes and STATUS -/

@[simp] theorem ofCode_code (e : ErrCode) : ErrCode.ofCode e.code = e := by
  cases e <;> rfl

/-- `fault_o` is the comparison of STATUS with 000 (R83). -/
theorem anyStatus_eq (st : BitVec 3) : anyStatus st = (st != 0) := by
  revert st
  decide

@[simp] theorem faultO_eq (s : State) : faultO s = (s.status != 0) := anyStatus_eq s.status

@[simp] theorem errCode_ne_ok (e : RunError) : e.errCode ≠ .ok := by
  cases e <;> decide

/-- The STATUS bit of a raised error, read off the error code that answers it (R15, R75). -/
theorem statusWith_eq (e : RunError) (st : BitVec 3) :
    statusWith e st = st |||
      (if e.errCode = .ovf then 0b001 else if e.errCode = .badidx then 0b010 else 0b100) := by
  cases e <;> rfl

/-! ### An accepted command and a clock edge -/

/-- Every accepted command responds (R16). -/
theorem CommandResult.rspValid {s t : State} (h : CommandResult s t) : t.rspValid = true := by
  cases h <;> rfl

/-- A command that responds OK leaves STATUS alone (R15). -/
theorem CommandResult.status_of_ok {s t : State} (h : CommandResult s t) (hok : t.rspErr = .ok) :
    t.status = s.status := by
  cases h with
  | error e => exact absurd hok (errCode_ne_ok e)
  | result d => rfl
  | write w hw => rfl

/-- A command that responds with an error sets the bit of that error (R15, R76). -/
theorem CommandResult.status_of_error {s t : State} (h : CommandResult s t) (herr : t.rspErr ≠ .ok) :
    t.status = s.status |||
      (if t.rspErr = .ovf then 0b001 else if t.rspErr = .badidx then 0b010 else 0b100) := by
  cases h with
  | error e => exact statusWith_eq e s.status
  | result d => exact absurd rfl herr
  | write w hw => exact absurd rfl herr

theorem edgeResult_of_clockEdge {p : PortInput} {s t : State} (h : clockEdge p s = .next t) :
    EdgeResult p s t := by
  obtain ⟨u, hu, hr⟩ := clockEdge_result p s
  cases hu.symm.trans h
  exact hr

theorem clockEdge_of_rst {p : PortInput} (s : State) (hr : p.rst = true) :
    clockEdge p s = .next (resetEdge s) := by
  simp [clockEdge, hr]

theorem clockEdge_of_idle {p : PortInput} (s : State) (hr : p.rst = false) (hv : p.cmdValid = false) :
    clockEdge p s = .next (idleEdge s) := by
  simp [clockEdge, hr, hv]

theorem clockEdge_of_command {p : PortInput} (s : State) (hr : p.rst = false) (hv : p.cmdValid = true) :
    clockEdge p s = acceptCommand p.command s := by
  simp [clockEdge, hr, hv]

/-- The host samples the response registers whenever `rsp_valid` is 1 (R16, R92). -/
theorem responseO_of_rspValid {s : State} (h : s.rspValid = true) :
    responseO s = some { err := s.rspErr, data := s.rspData } := by
  simp [responseO, rspErrO, h]

/-! ### What a command reads -/

/-- `s` with other values in the parts R20 says no command reads: STATUS, the response registers and the
schedule. -/
def State.withUnread (s : State) (st : BitVec 3) (rv : Bool) (re : ErrCode) (rd : Word)
    (ps : List PortInput) : State :=
  { s with status := st, rspValid := rv, rspErr := re, rspData := rd, inputs := ps }

/-- Both states show the same response and hold the same STORE. -/
structure SameAnswer (t u : State) : Prop where
  rspValid : u.rspValid = t.rspValid
  rspErr : u.rspErr = t.rspErr
  rspData : u.rspData = t.rspData
  store : storeValue u = storeValue t

theorem respond_sameAnswer (e : ErrCode) (d : Word) {s s' : State} (h : storeValue s' = storeValue s) :
    SameAnswer (respond e d s) (respond e d s') :=
  ⟨rfl, rfl, rfl, h⟩

theorem raise_sameAnswer (e : RunError) {s s' : State} (h : storeValue s' = storeValue s) :
    SameAnswer (raise e s) (raise e s') :=
  ⟨rfl, rfl, rfl, h⟩

/-- The index check reads the layout alone, so it keeps the agreement of what it guards. -/
theorem withField_sameAnswer (i : Nat) {s s' : State} {run : State → State} (hl : s'.layout = s.layout)
    (hs : storeValue s' = storeValue s) (h : SameAnswer (run s) (run s')) :
    SameAnswer (withField i s run) (withField i s' run) := by
  rcases Nat.lt_or_ge i s.layout.n with hi | hi
  · rw [withField_of_lt i s run hi, withField_of_lt i s' run (hl ▸ hi)]
    exact h
  · rw [withField_of_ge i s run hi, withField_of_ge i s' run (hl ▸ hi)]
    exact raise_sameAnswer _ hs

section
variable (s : State) (st : BitVec 3) (rv : Bool) (re : ErrCode) (rd : Word) (ps : List PortInput)

/-- No meaning reads STATUS, the response registers or the schedule (R20). -/
theorem exec_withUnread (i : Instr) :
    ∃ t u, exec i s = .next t ∧ exec i (s.withUnread st rv re rd ps) = .next u ∧ SameAnswer t u := by
  cases i with
  | nop => exact ⟨_, _, rfl, rfl, respond_sameAnswer _ _ rfl⟩
  | get i => exact ⟨_, _, rfl, rfl, withField_sameAnswer i rfl rfl (respond_sameAnswer _ _ rfl)⟩
  | set i v =>
    rcases Nat.lt_or_ge i s.layout.n with h | h
    · rcases Nat.lt_or_ge v.toNat (2 ^ s.layout.len i) with hv | hv
      · exact ⟨_, _, exec_set_of_fits i v s h hv, exec_set_of_fits i v _ h hv, respond_sameAnswer _ _ rfl⟩
      · exact ⟨_, _, exec_set_of_wide i v s h hv, exec_set_of_wide i v _ h hv, raise_sameAnswer _ rfl⟩
    · exact ⟨_, _, exec_set_of_ge i v s h, exec_set_of_ge i v _ h, raise_sameAnswer _ rfl⟩
  | setb i b => exact ⟨_, _, rfl, rfl, withField_sameAnswer i rfl rfl (respond_sameAnswer _ _ rfl)⟩
  | load v =>
    rcases Nat.lt_or_ge v.toNat (2 ^ s.layout.total) with hv | hv
    · exact ⟨_, _, exec_load_of_fits v s hv, exec_load_of_fits v _ hv, respond_sameAnswer _ _ rfl⟩
    · exact ⟨_, _, exec_load_of_wide v s hv, exec_load_of_wide v _ hv, raise_sameAnswer _ rfl⟩
  | query i => exact ⟨_, _, rfl, rfl, withField_sameAnswer i rfl rfl (respond_sameAnswer _ _ rfl)⟩
  | rdword => exact ⟨_, _, rfl, rfl, respond_sameAnswer _ _ rfl⟩

/-- Nor does an accepted command, legal or not. -/
theorem acceptCommand_withUnread (c : Command) :
    ∃ t u, acceptCommand c s = .next t ∧ acceptCommand c (s.withUnread st rv re rd ps) = .next u ∧
      SameAnswer t u := by
  unfold acceptCommand
  cases decode c with
  | error r => exact ⟨_, _, rfl, rfl, raise_sameAnswer _ rfl⟩
  | ok i => exact exec_withUnread s st rv re rd ps i

end

/-! ### The obligations -/

/-- Settles O16, along the three kinds of edge: reset clears STATUS, an idle edge keeps it, and a command
does with it what its response says. -/
theorem statusBitsAreSticky : Obligations.StatusBitsAreSticky := by
  intro s t p h
  refine ⟨statusO_eq t, faultO_eq t, ?_⟩
  cases edgeResult_of_clockEdge h with
  | reset hr => simp [hr]
  | idle hr hv => simp [hr, hv]
  | command _ hr hv _ hc =>
    by_cases hok : t.rspErr = .ok
    · simp [hr, hok, hc.status_of_ok hok]
    · simp [hr, hv, hok, hc.status_of_error hok, apply_ite (s.status ||| ·)]

/-- Settles O18: the two states have one layout and one STORE, and nothing else is read. -/
theorem noCommandReadsStatusOrResponse : Obligations.NoCommandReadsStatusOrResponse := by
  intro s c st rv re rd ps
  obtain ⟨t, u, ht, hu, hs⟩ := acceptCommand_withUnread s st rv re rd ps c
  exact ⟨t, u, ht, hu, hs.rspValid, hs.rspErr, hs.rspData, hs.store⟩

/-- Settles O39: one equation of the edge per kind of edge, and an accepted command always responds. -/
theorem edgeAcceptsWhatIsPresented : Obligations.EdgeAcceptsWhatIsPresented := by
  intro s p
  refine ⟨fun hr hv => ?_, clockEdge_of_idle s, clockEdge_of_rst s, rfl, rfl, rfl⟩
  obtain ⟨t, ht, hc⟩ := acceptCommand_result p.command s
  exact ⟨t, ht, (clockEdge_of_command s hr hv).trans ht, hc.rspValid, responseO_of_rspValid hc.rspValid⟩

end Sys2Proof.Machine
end

section
/-! PROOFS, family 20_memory: a run composes. The edges, and so the commands, of a run take effect one after
another, each on the state the earlier ones left (R31). -/

namespace Sys2Proof.Machine

/-! ### Runs over edges -/

theorem observeEdges_cons {p : PortInput} {ps : List PortInput} {s t u : State} {rs : List Response}
    (hp : clockEdge p s = .next t) (hps : observeEdges ps t = .next (rs, u)) :
    observeEdges (p :: ps) s = .next ((responseO t).toList ++ rs, u) := by
  simp only [observeEdges, hp, hps]

/-- A run never ends in a fault or a refusal, since no edge does. -/
theorem observeEdges_answers (ps : List PortInput) (s : State) :
    ∃ rs u, observeEdges ps s = .next (rs, u) := by
  induction ps generalizing s with
  | nil => exact ⟨[], s, rfl⟩
  | cons p ps ih =>
    obtain ⟨t, hp, -⟩ := clockEdge_result p s
    obtain ⟨rs, u, hps⟩ := ih t
    exact ⟨_, u, observeEdges_cons hp hps⟩

/-- A run over `ps ++ qs` is the run over `ps`, then the run over `qs` from the state `ps` left. -/
theorem observeEdges_append {ps qs : List PortInput} {s u v : State} {rs rs' : List Response}
    (hps : observeEdges ps s = .next (rs, u)) (hqs : observeEdges qs u = .next (rs', v)) :
    observeEdges (ps ++ qs) s = .next (rs ++ rs', v) := by
  induction ps generalizing s rs with
  | nil =>
    cases hps
    exact hqs
  | cons p ps ih =>
    obtain ⟨t, hp, -⟩ := clockEdge_result p s
    obtain ⟨rest, w, hrest⟩ := observeEdges_answers ps t
    cases (observeEdges_cons hp hrest).symm.trans hps
    rw [List.append_assoc]
    exact observeEdges_cons hp (ih hrest)

/-! ### Runs of programs -/

theorem observeProgram_answers (cs : List Command) (s : State) :
    ∃ rs u, observeProgram cs s = .next (rs, u) :=
  observeEdges_answers _ s

theorem observeProgram_append {xs ys : List Command} {s u v : State} {rs qs : List Response}
    (hxs : observeProgram xs s = .next (rs, u)) (hys : observeProgram ys u = .next (qs, v)) :
    observeProgram (xs ++ ys) s = .next (rs ++ qs, v) := by
  rw [observeProgram, List.map_append]
  exact observeEdges_append hxs hys

/-- The first command of a program is accepted in the starting state, and its response, read off the response
registers it leaves, comes first (R31, R92). -/
theorem observeProgram_cons {c : Command} {cs : List Command} {s t u : State} {rs : List Response}
    (hc : acceptCommand c s = .next t) (hcs : observeProgram cs t = .next (rs, u)) :
    observeProgram (c :: cs) s = .next ({ err := t.rspErr, data := t.rspData } :: rs, u) := by
  have hedge : clockEdge (PortInput.ofCommand c) s = .next t :=
    (clockEdge_of_command s rfl rfl).trans hc
  obtain ⟨t', ht', hr⟩ := acceptCommand_result c s
  cases ht'.symm.trans hc
  have hrun := observeEdges_cons hedge hcs
  rw [responseO_of_rspValid hr.rspValid] at hrun
  exact hrun

/-! ### The obligation -/

/-- Settles O45: the run of `xs`, the acceptance of `c` and the run of `ys` all answer, and together they are
the run of the whole program. -/
theorem commandsTakeEffectInOrder : Obligations.CommandsTakeEffectInOrder := by
  intro xs ys c s
  obtain ⟨rs, u, hxs⟩ := observeProgram_answers xs s
  obtain ⟨t, hc, -⟩ := acceptCommand_result c u
  obtain ⟨qs, v, hys⟩ := observeProgram_answers ys t
  exact ⟨rs, u, t, qs, v, hxs, hc, hys, observeProgram_append hxs (observeProgram_cons hc hys)⟩

end Sys2Proof.Machine
end

section
/-! PROOFS, family 30_encoding: which instruction a command word carries, and what its response shows
(R38 to R40, R44). -/

namespace Sys2Proof

/-! ### Decoding a written command word -/

/-- The word FIDX*8 + OP decodes by its opcode alone (R38, R39). -/
theorem decode_cmdWord (f op : Nat) (d : Word) (hf : f < 64) (ho : op < 8) :
    decode { cmd := cmdWord f op, wdata := d } =
      if op = 0 then .ok .nop
      else if op = 1 then .ok (.get f)
      else if op = 2 then .ok (.set f d)
      else if op = 3 then .ok (.setb f (d.getLsbD 0))
      else if op = 4 then .ok (.load d)
      else if op = 5 then .ok (.query f)
      else if op = 6 then .ok .rdword
      else .error .reservedOpcode := by
  have hw := cmdWord_toNat f op hf ho
  have hop : (f * 8 + op) % 8 = op := by omega
  have hfidx : (f * 8 + op) / 8 = f := by omega
  rw [decode_byOpcode _ (by simp only [hw]; omega), hw, hop, hfidx]

/-- The encoder's command of a well-formed instruction decodes to it (R38 to R40). -/
theorem decode_encode (i : Instr) (h : i.wf = true) : decode (encode i) = .ok i := by
  cases i with
  | nop => exact decode_cmdWord 0 0 0 (by decide) (by decide)
  | get f => exact decode_cmdWord f 1 0 (of_decide_eq_true h) (by decide)
  | set f v => exact decode_cmdWord f 2 v (of_decide_eq_true h) (by decide)
  | setb f b =>
    refine (decode_cmdWord f 3 _ (of_decide_eq_true h) (by decide)).trans ?_
    cases b <;> rfl
  | load v => exact decode_cmdWord 0 4 v (by decide) (by decide)
  | query f => exact decode_cmdWord f 5 0 (of_decide_eq_true h) (by decide)
  | rdword => exact decode_cmdWord 0 6 0 (by decide) (by decide)

/-! ### Instructions without a result -/

/-- The instruction answers with data: GET, QUERY and RDWORD (R44). -/
def Instr.hasResult : Instr → Bool
  | .nop => false
  | .get _ => true
  | .set _ _ => false
  | .setb _ _ => false
  | .load _ => false
  | .query _ => true
  | .rdword => true

/-- The opcodes of the instructions without a result, and the reserved opcode beside them. -/
theorem hasResult_eq_false_of_opcode {c : Command} {i : Instr} (h : decode c = .ok i)
    (hop : c.cmd.toNat % 8 ∈ [0, 2, 3, 4, 7]) : i.hasResult = false := by
  rcases Nat.lt_or_ge c.cmd.toNat 512 with hc | hc
  · simp only [List.mem_cons, List.not_mem_nil, or_false] at hop
    rw [decode_byOpcode c hc] at h
    rcases hop with ho | ho | ho | ho | ho <;> rw [ho] at h <;> cases h <;> rfl
  · cases (decode_reservedBits c hc).symm.trans h

end Sys2Proof

namespace Sys2Proof.Machine

theorem acceptCommand_of_decode {c : Command} {i : Instr} (s : State) (h : decode c = .ok i) :
    acceptCommand c s = exec i s := by
  simp only [acceptCommand, h]

theorem acceptCommand_of_error {c : Command} {r : Reject} (s : State) (h : decode c = .error r) :
    acceptCommand c s = .next (raise .illegal s) := by
  simp only [acceptCommand, h]

/-- Settles O4: the word of each opcode decodes to the instruction of its used operands. -/
theorem operandAssembly : Obligations.OperandAssembly := by
  intro s f d hf
  have accept (op : Nat) (ho : op < 8) (i : Instr) (h : _ = Except.ok i) :=
    acceptCommand_of_decode s ((decode_cmdWord f op d hf ho).trans h)
  exact ⟨accept 0 (by decide) _ rfl, accept 1 (by decide) _ rfl, accept 2 (by decide) _ rfl,
    accept 3 (by decide) _ rfl, accept 4 (by decide) _ rfl, accept 5 (by decide) _ rfl,
    accept 6 (by decide) _ rfl⟩

/-! ### The response -/

theorem code_ne_zero_iff (e : ErrCode) : e.code ≠ 0b00 ↔ e ≠ .ok := by
  cases e <;> decide

/-- A command that responds with an error shows RDATA 0 (R44, R76). -/
theorem CommandResult.rspData_of_error {s t : State} (h : CommandResult s t) (herr : t.rspErr ≠ .ok) :
    t.rspData = 0 := by
  cases h with
  | error e => rfl
  | result d => exact absurd rfl herr
  | write w hw => rfl

/-- A command that responds with an error writes nothing to STORE (R44, R76). -/
theorem CommandResult.storeValue_of_error {s t : State} (h : CommandResult s t) (herr : t.rspErr ≠ .ok) :
    storeValue t = storeValue s := by
  cases h with
  | error e => rfl
  | result d => rfl
  | write w hw => exact absurd rfl herr

/-- An instruction without a result answers RDATA 0, in error or not (R44). -/
theorem exec_rspData_of_noResult (i : Instr) (s : State) (hi : i.hasResult = false) :
    ∃ t, exec i s = .next t ∧ t.rspData = 0 := by
  cases i with
  | nop => exact ⟨_, rfl, rfl⟩
  | set i v =>
    rcases Nat.lt_or_ge i s.layout.n with h | h
    · rcases Nat.lt_or_ge v.toNat (2 ^ s.layout.len i) with hv | hv
      · exact ⟨_, exec_set_of_fits i v s h hv, rfl⟩
      · exact ⟨_, exec_set_of_wide i v s h hv, rfl⟩
    · exact ⟨_, exec_set_of_ge i v s h, rfl⟩
  | setb i b =>
    rcases Nat.lt_or_ge i s.layout.n with h | h
    · exact ⟨_, exec_setb_of_lt i b s h, rfl⟩
    · exact ⟨_, exec_setb_of_ge i b s h, rfl⟩
  | load v =>
    rcases Nat.lt_or_ge v.toNat (2 ^ s.layout.total) with hv | hv
    · exact ⟨_, exec_load_of_fits v s hv, rfl⟩
    · exact ⟨_, exec_load_of_wide v s hv, rfl⟩
  | get i | query i | rdword => cases hi

/-- An accepted word of an opcode without a result, legal or not, answers RDATA 0 (R44). -/
theorem acceptCommand_rspData_of_noResult {c : Command} {s t : State} (h : acceptCommand c s = .next t)
    (hop : c.cmd.toNat % 8 ∈ [0, 2, 3, 4, 7]) : t.rspData = 0 := by
  cases hd : decode c with
  | error r =>
    cases (acceptCommand_of_error s hd).symm.trans h
    rfl
  | ok i =>
    obtain ⟨u, hu, hz⟩ := exec_rspData_of_noResult i s (hasResult_eq_false_of_opcode hd hop)
    cases ((acceptCommand_of_decode s hd).trans hu).symm.trans h
    exact hz

/-- Settles O19: the edge accepts the command, whose response is an error's, a result's or a write's. -/
theorem responseFormat : Obligations.ResponseFormat := by
  refine ⟨rfl, rfl, rfl, rfl, fun s p hr hv => ?_⟩
  obtain ⟨t, ht, hc⟩ := acceptCommand_result p.command s
  refine ⟨t, (clockEdge_of_command s hr hv).trans ht, hc.rspValid, fun herr => ?_,
    acceptCommand_rspData_of_noResult ht⟩
  have hne : t.rspErr ≠ .ok := (code_ne_zero_iff _).1 herr
  exact ⟨hc.rspData_of_error hne, hc.storeValue_of_error hne⟩

end Sys2Proof.Machine
end

section
/-! PROOFS, family 30_encoding: the assembler's `<field>` and the pseudo-instructions (R46, R48). -/

namespace Sys2Proof

/-! ### The layout -/

theorem Layout.len_le (L : Layout) (i : Nat) (h : i < L.n) : L.len i ≤ 64 :=
  (L.width_mem _ (L.len_mem i h)).2

/-- Every field takes a bit of TOTAL, so an index of a field fits FIDX. -/
theorem Layout.n_le (L : Layout) : L.n ≤ 64 :=
  (List.length_le_sum_of_one_le L.fields.widths fun w hw => (L.width_mem w hw).1).trans L.total_le

theorem Layout.names_length (L : Layout) {ns : List String} (h : L.fields.names = some ns) :
    ns.length = L.n := by
  have hv := L.valid
  simp only [FieldSet.valid, FieldSet.nameCountFits, h, Bool.and_eq_true, decide_eq_true_eq] at hv
  exact hv.1.2

theorem Layout.names_nodup (L : Layout) {ns : List String} (h : L.fields.names = some ns) : ns.Nodup := by
  have hv := L.valid
  simp only [FieldSet.valid, FieldSet.namesDistinct, h, Bool.and_eq_true, decide_eq_true_eq] at hv
  exact hv.2

namespace Machine

/-! ### The assembler's `<field>` -/

/-- What a `<field>` names is a field of the layout. -/
theorem refersTo_lt {L : Layout} {f : FieldRef} {i : Nat} (h : refersTo L f i) : i < L.n := by
  cases f with
  | index k => exact h.2
  | name label =>
    obtain ⟨ns, hns, hi⟩ := h
    rw [← L.names_length hns]
    exact (List.getElem?_eq_some_iff.1 hi).1

/-- A `<field>` resolves to the field it names; a name stands at one place only. -/
theorem resolveField_of_refersTo {L : Layout} {f : FieldRef} {i : Nat} (h : refersTo L f i) :
    resolveField (some L) f = .ok i := by
  cases f with
  | index k =>
    obtain ⟨rfl, hk⟩ := h
    have hk64 : ¬ 64 ≤ k := Nat.not_le.2 (hk.trans_le L.n_le)
    simp [resolveField, hk64, hk]
  | name label =>
    obtain ⟨ns, hns, hi⟩ := h
    obtain ⟨hlt, rfl⟩ := List.getElem?_eq_some_iff.1 hi
    simp [resolveField, hns, (L.names_nodup hns).idxOf_getElem]

/-- What a `<field>` resolves to is the field it names. -/
theorem refersTo_of_resolveField {L : Layout} {f : FieldRef} {i : Nat}
    (h : resolveField (some L) f = .ok i) : refersTo L f i := by
  cases f with
  | index k =>
    simp only [resolveField] at h
    split_ifs at h with hk hv
    cases h
    exact ⟨rfl, (validIndex_iff L _).1 hv⟩
  | name label =>
    cases hns : L.fields.names with
    | none => simp [resolveField, hns] at h
    | some ns =>
      simp only [resolveField, hns] at h
      split_ifs at h with hm
      cases h
      exact ⟨ns, hns, List.getElem?_idxOf hm⟩

/-- A `<field>` that names no field is rejected (R46). -/
theorem resolveField_rejects {L : Layout} {f : FieldRef} (h : ∀ i, ¬ refersTo L f i) :
    ∃ e, resolveField (some L) f = .error e := by
  cases hr : resolveField (some L) f with
  | error e => exact ⟨e, rfl⟩
  | ok i => exact absurd (refersTo_of_resolveField hr) (h i)

theorem asmValue_of_lt {v : Nat} (h : v < 2 ^ 64) : asmValue v = .ok (BitVec.ofNat 64 v) :=
  if_pos h

/-- SET of a constant that fits is accepted (R46). -/
theorem asmSet_of_fits {L : Layout} {f : FieldRef} {i v : Nat} (h : refersTo L f i) (hv : v < 2 ^ L.len i) :
    asmSet (some L) f v = .ok (.set i (BitVec.ofNat 64 v)) := by
  have hi := refersTo_lt h
  have hv64 : v < 2 ^ 64 := hv.trans_le (Nat.pow_le_pow_right (by decide) (L.len_le i hi))
  have hovf : fieldOvf L (BitVec.ofNat 64 v) i = false := by
    rw [fieldOvf_eq L _ i hi, BitVec.toNat_ofNat, Nat.mod_eq_of_lt hv64]
    simpa using hv
  simp [asmSet, resolveField_of_refersTo h, asmValue_of_lt hv64, hovf, bind, Except.bind]

/-! ### A field after a write of it -/

/-- Reading back what INSERT wrote gives its value cut to the field's width (R62). -/
theorem extract_insert_same (L : Layout) (s : BitVec L.sw) (i : Nat) (t : Word) (h : i < L.n) :
    (extract L (insert L s i t) i).setWidth 64 = truncField L t i := by
  apply BitVec.eq_of_getLsbD_eq
  intro k hk
  have hend := L.field_end_le_sw i h
  rw [BitVec.getLsbD_setWidth, extract_getLsbD, truncField_getLsbD _ _ _ _ h]
  by_cases hl : k < L.len i
  · rw [insert_getLsbD _ _ _ _ _ h (by omega), if_pos (by omega)]
    simp [hk, hl, show k < L.sw by omega]
  · simp [hl]

theorem truncField_of_fits {L : Layout} {v : Word} {i : Nat} (h : i < L.n) (hv : v.toNat < 2 ^ L.len i) :
    truncField L v i = v := by
  have hovf := fieldOvf_eq L v i h
  rw [decide_eq_false (by omega)] at hovf
  simpa [fieldOvf] using hovf

/-- A field holds the value last written into it. -/
theorem fieldValue_insert (s : State) (i : Nat) (v : Word) (h : i < s.layout.n)
    (hv : v.toNat < 2 ^ s.layout.len i) :
    fieldValue (respond .ok 0 (writeStore s (insert s.layout s.store i v))) i = v :=
  (extract_insert_same s.layout s.store i v h).trans (truncField_of_fits h hv)

/-- The command of SET with a value that fits leaves it in the field (R64). -/
theorem acceptCommand_encode_set (s : State) (i : Nat) (v : Word) (h : i < s.layout.n)
    (hv : v.toNat < 2 ^ s.layout.len i) :
    ∃ t, acceptCommand (encode (.set i v)) s = .next t ∧ fieldValue t i = v :=
  have hwf : (Instr.set i v).wf = true := decide_eq_true (h.trans_le s.layout.n_le)
  ⟨_, (acceptCommand_encode _ s (decode_encode _ hwf)).trans (exec_set_of_fits i v s h hv),
    fieldValue_insert s i v h hv⟩

/-- The command of SETB leaves 1 or 0 in the field, which is at least one bit wide (R65). -/
theorem acceptCommand_encode_setb (s : State) (i : Nat) (b : Bool) (h : i < s.layout.n) :
    ∃ t, acceptCommand (encode (.setb i b)) s = .next t ∧ fieldValue t i = boolWord b :=
  have hwf : (Instr.setb i b).wf = true := decide_eq_true (h.trans_le s.layout.n_le)
  have hlen := (s.layout.width_mem _ (s.layout.len_mem i h)).1
  have hb : (boolWord b).toNat < 2 := by cases b <;> decide
  ⟨_, (acceptCommand_encode _ s (decode_encode _ hwf)).trans (exec_setb_of_lt i b s h),
    fieldValue_insert s i _ h (hb.trans_le (Nat.pow_le_pow_right (n := 2) (by decide) hlen))⟩

/-! ### The pseudo-instructions -/

/-- The four pseudo-instructions with a `<field>` resolve it first. -/
theorem assemble_pseudo_rejects {L : Layout} {f : FieldRef} {e : AsmError}
    (h : resolveField (some L) f = .error e) :
    ∀ a ∈ [AsmLine.clrf f, .setmax f, .sett f, .setf f], assemble (some L) a = .error e := by
  simp [assemble, asmSet, asmSetmax, h, bind, Except.bind]

theorem assemble_set_of_fits {L : Layout} {f : FieldRef} {i v : Nat} (h : refersTo L f i)
    (hv : v < 2 ^ L.len i) :
    assemble (some L) (.set f v) = .ok (encode (.set i (BitVec.ofNat 64 v))) := by
  simp only [assemble, asmSet_of_fits h hv]
  rfl

theorem assemble_setb_of_refersTo {L : Layout} {f : FieldRef} {i : Nat} (h : refersTo L f i) (b : Bool) :
    assemble (some L) (.setb f b) = .ok (encode (.setb i b)) := by
  simp only [assemble, resolveField_of_refersTo h]
  rfl

theorem assemble_load_zero (L : Layout) : assemble (some L) (.load 0) = .ok (encode (.load 0)) := by
  have hovf : wordOvf L (BitVec.ofNat 64 0) = false := by simp [wordOvf]
  simp only [assemble, asmLoad, asmValue_of_lt (Nat.two_pow_pos 64), bind, Except.bind, hovf]
  rfl

/-! The expansions, each line to one line of R46. -/

theorem assemble_clear (known : Option Layout) : assemble known .clear = assemble known (.load 0) := rfl

theorem assemble_clrf (known : Option Layout) (f : FieldRef) :
    assemble known (.clrf f) = assemble known (.set f 0) := rfl

theorem assemble_sett (known : Option Layout) (f : FieldRef) :
    assemble known (.sett f) = assemble known (.setb f true) := rfl

theorem assemble_setf (known : Option Layout) (f : FieldRef) :
    assemble known (.setf f) = assemble known (.setb f false) := rfl

theorem assemble_setmax {L : Layout} {f : FieldRef} {i : Nat} (h : refersTo L f i) :
    assemble (some L) (.setmax f) = assemble (some L) (.set f (2 ^ L.len i - 1)) := by
  simp only [assemble, asmSetmax, resolveField_of_refersTo h]
  rfl

/-! Their effects. -/

/-- CLEAR's command zeroes STORE and leaves STATUS (R48, R70). -/
theorem acceptCommand_encode_load_zero (s : State) :
    ∃ t, acceptCommand (encode (.load 0)) s = .next t ∧ storeValue t = 0 ∧ t.status = s.status := by
  refine ⟨_, (acceptCommand_encode _ s (decode_encode (.load 0) rfl)).trans
    (exec_load_of_fits 0 s (Nat.two_pow_pos _)), ?_, rfl⟩
  simp [storeValue]

/-- 2^LENGTH − 1 as an operand is that number: LENGTH is at most 64. -/
theorem maxValue_toNat (L : Layout) (i : Nat) (h : i < L.n) :
    (BitVec.ofNat 64 (2 ^ L.len i - 1)).toNat = 2 ^ L.len i - 1 := by
  have hpow : 2 ^ L.len i ≤ 2 ^ 64 := Nat.pow_le_pow_right (by decide) (L.len_le i h)
  rw [BitVec.toNat_ofNat, Nat.mod_eq_of_lt (by omega)]

/-- Settles O53: each line assembles to the command R48 gives, whose effect is that of LOAD, SET or SETB. -/
theorem pseudoInstructionsMeanWhatTheySay : Obligations.PseudoInstructionsMeanWhatTheySay := by
  refine ⟨fun L f hno a ha => ?_, fun s f i h => ?_⟩
  · obtain ⟨e, he⟩ := resolveField_rejects hno
    exact ⟨e, assemble_pseudo_rejects he a ha⟩
  have hi := refersTo_lt h
  have hpos := Nat.two_pow_pos (s.layout.len i)
  have hmax := maxValue_toNat s.layout i hi
  obtain ⟨tclear, hclear, hstore, hstatus⟩ := acceptCommand_encode_load_zero s
  obtain ⟨tclrf, hclrf, hclrfVal⟩ := acceptCommand_encode_set s i 0 hi hpos
  obtain ⟨tmax, hsetmax, hmaxVal⟩ := acceptCommand_encode_set s i (BitVec.ofNat 64 (2 ^ s.layout.len i - 1))
    hi (by omega)
  obtain ⟨tt, hsett, httVal⟩ := acceptCommand_encode_setb s i true hi
  obtain ⟨tf, hsetf, htfVal⟩ := acceptCommand_encode_setb s i false hi
  exact ⟨⟨_, tclear, (assemble_clear _).trans (assemble_load_zero _), rfl, hclear, hstore, hstatus⟩,
    ⟨_, tclrf, (assemble_clrf _ f).trans (assemble_set_of_fits h hpos), rfl, hclrf, hclrfVal⟩,
    ⟨_, tmax, (assemble_setmax h).trans (assemble_set_of_fits h (by omega)), rfl, hsetmax,
      (congrArg BitVec.toNat hmaxVal).trans hmax⟩,
    ⟨_, tt, (assemble_sett _ f).trans (assemble_setb_of_refersTo h true), rfl, hsett, httVal⟩,
    ⟨_, tf, (assemble_setf _ f).trans (assemble_setb_of_refersTo h false), rfl, hsetf, htfVal⟩⟩

end Machine

end Sys2Proof
end

section
/-! PROOFS, family 40_layout: the elaboration checks and the derived constants (R50 to R56). -/

namespace Sys2Proof

/-! ### Elaboration -/

/-- The two parts of R50's check 4: names, if given, are N and distinct. -/
theorem FieldSet.nameChecks_iff (f : FieldSet) :
    (f.nameCountFits = true ∧ f.namesDistinct = true) ↔
      ∀ ns, f.names = some ns → ns.length = f.widths.length ∧ ns.Nodup := by
  cases hn : f.names with
  | none => simp [FieldSet.nameCountFits, FieldSet.namesDistinct, hn]
  | some ns => simp [FieldSet.nameCountFits, FieldSet.namesDistinct, hn]

/-- R50's four checks as one proposition. -/
theorem FieldSet.valid_iff (f : FieldSet) :
    f.valid = true ↔
      1 ≤ f.widths.length ∧ (∀ w ∈ f.widths, 1 ≤ w ∧ w ≤ 64) ∧ f.widths.sum ≤ 64 ∧
      ∀ ns, f.names = some ns → ns.length = f.widths.length ∧ ns.Nodup := by
  simp only [← f.nameChecks_iff, FieldSet.valid, FieldSet.hasField, FieldSet.widthsInRange, FieldSet.totalFits,
    Bool.and_eq_true, List.all_eq_true, decide_eq_true_eq, and_assoc]

/-- Elaboration answers the layout of the field-set it was handed, and no other. -/
theorem elaborate_eq_ok_iff {f : FieldSet} {L : Layout} : elaborate f = .ok L ↔ L.fields = f := by
  constructor
  · intro h
    simp only [elaborate] at h
    split_ifs at h
    cases h
    rfl
  · rintro rfl
    exact dif_pos L.valid

/-- Every field takes a bit of TOTAL. -/
theorem Layout.total_pos (L : Layout) : 1 ≤ L.total :=
  L.hasField_true.trans (List.length_le_sum_of_one_le _ fun w hw => (L.width_mem w hw).1)

/-- Settles O21: elaboration succeeds exactly on a field-set of some layout, that is on a valid one. -/
theorem elaborationAcceptsExactlyValidFieldSets : Obligations.ElaborationAcceptsExactlyValidFieldSets := by
  refine fun f => ⟨?_, fun L hL => ⟨elaborate_eq_ok_iff.1 hL, L.total_pos, L.total_le, L.n_le⟩⟩
  rw [← f.valid_iff]
  constructor
  · rintro ⟨L, hL⟩
    exact elaborate_eq_ok_iff.1 hL ▸ L.valid
  · exact fun hv => ⟨⟨f, hv⟩, elaborate_eq_ok_iff.2 rfl⟩

/-! ### LENGTH, OFFSET and TOTAL -/

theorem Layout.offset_eq_sum (L : Layout) (i : Nat) (h : i ≤ L.n) :
    L.offset i = ∑ j ∈ Finset.range i, L.len j :=
  (Finset.sum_range_induction L.len L.offset L.offset_zero i fun k hk => L.offset_succ k (hk.trans_le h)).symm

/-- The last field ends at TOTAL (R53). -/
theorem Layout.total_eq_last_end (L : Layout) : L.total = L.offset (L.n - 1) + L.len (L.n - 1) := by
  have hn := L.hasField_true
  rw [← L.offset_succ _ (by omega), Nat.sub_add_cancel hn, L.offset_n]

/-- Settles O22: each OFFSET ends where the field below does, and OFFSET[N] is TOTAL. -/
theorem offsetsAreRunningSums : Obligations.OffsetsAreRunningSums := fun L =>
  ⟨L.offset_zero, L.len_eq_getElem, L.offset_succ, fun i h => L.offset_eq_sum i h.le, L.total_eq_last_end,
    L.offset_n.symm.trans (L.offset_eq_sum L.n le_rfl)⟩

/-! ### The storage width -/

theorem storageWidth_mem (t : Nat) : storageWidth t ∈ [8, 16, 32, 64] := by
  unfold storageWidth
  split_ifs <;> decide

/-- Every step of the ladder that holds `t` is at least the storage width (R54). -/
theorem storageWidth_le_of_mem {t w : Nat} (hw : w ∈ [8, 16, 32, 64]) (h : t ≤ w) : storageWidth t ≤ w := by
  simp only [List.mem_cons, List.not_mem_nil, or_false] at hw
  unfold storageWidth
  rcases hw with rfl | rfl | rfl | rfl <;> split_ifs <;> omega

/-- Settles O23: the storage width is on the ladder, holds TOTAL and is the least that does. -/
theorem storageWidthIsTheSmallestThatHolds : Obligations.StorageWidthIsTheSmallestThatHolds := fun L =>
  ⟨storageWidth_mem L.total, L.total_le_sw, fun _ hw h => storageWidth_le_of_mem hw h⟩

/-! ### The masks -/

theorem Layout.len_le_sw (L : Layout) (i : Nat) (h : i < L.n) : L.len i ≤ L.sw :=
  (Nat.le_add_left _ _).trans (L.field_end_le_sw i h)

theorem Layout.mask_toNat (L : Layout) (i : Nat) (h : i < L.n) : (L.mask i).toNat = 2 ^ L.len i - 1 := by
  apply Nat.eq_of_testBit_eq
  intro k
  have hlen := L.len_le_sw i h
  rw [BitVec.testBit_toNat, L.mask_getLsbD, Nat.testBit_two_pow_sub_one, decide_eq_decide]
  omega

/-- MASK64 has the value of MASK: STORE is at most 64 bits wide (R55). -/
theorem Layout.mask64_toNat (L : Layout) (i : Nat) : (L.mask64 i).toNat = (L.mask i).toNat :=
  BitVec.toNat_setWidth_of_le L.sw_le

/-- A field as wide as STORE has every bit of it: the shift by the whole width leaves no bit (R55). -/
theorem Layout.mask_of_full_width (L : Layout) (i : Nat) (h : L.len i = L.sw) : L.mask i = L.allOnes := by
  rw [Layout.mask, h, BitVec.shiftLeft_eq_zero le_rfl, BitVec.not_zero, Layout.allOnes]

/-- Settles O24: MASK has its definition's form, and its bits give its value. -/
theorem maskIsTwoToLengthMinusOne : Obligations.MaskIsTwoToLengthMinusOne := fun L i h =>
  ⟨rfl, rfl, L.mask_toNat i h, (L.mask64_toNat i).trans (L.mask_toNat i h), L.mask_of_full_width i⟩

theorem Layout.fmask_getLsbD_iff (L : Layout) (i k : Nat) (h : i < L.n) :
    (L.fmask i).getLsbD k = true ↔ L.offset i ≤ k ∧ k < L.offset i + L.len i := by
  have hend := L.field_end_le_sw i h
  rw [L.fmask_getLsbD, decide_eq_true_iff]
  omega

/-- The field ends inside STORE, so shifting MASK into place loses no one-bit (R56). -/
theorem Layout.fmask_ushiftRight_offset (L : Layout) (i : Nat) (h : i < L.n) :
    L.fmask i >>> L.offset i = L.mask i := by
  apply BitVec.eq_of_getLsbD_eq
  intro k hk
  have hend := L.field_end_le_sw i h
  rw [BitVec.getLsbD_ushiftRight, L.fmask_getLsbD, L.mask_getLsbD, decide_eq_decide]
  omega

/-- Settles O25, bit by bit. -/
theorem positionedMaskCoversTheField : Obligations.PositionedMaskCoversTheField := fun L i h =>
  ⟨fun k => L.fmask_getLsbD_iff i k h, L.fmask_ushiftRight_offset i h⟩

end Sys2Proof
end

section
/-! PROOFS, family 40_layout: QUERY (R57). -/

namespace Sys2Proof.Machine

/-! ### The slots of RDATA -/

/-- Above a number that fits below bit `k`, an OR with a number shifted to bit `k` is a sum. -/
theorem ofNat_or_shiftLeft {w a k : Nat} (b : Nat) (h : a < 2 ^ k) :
    BitVec.ofNat w a ||| (BitVec.ofNat w b <<< k) = BitVec.ofNat w (a + b * 2 ^ k) := by
  have hshift : BitVec.ofNat w b <<< k = BitVec.ofNat w (2 ^ k * b) := by
    apply BitVec.eq_of_toNat_eq
    simp [Nat.shiftLeft_eq, Nat.mul_comm]
  rw [hshift, ← BitVec.ofNat_or, Nat.or_comm, ← Nat.two_pow_add_eq_or_of_lt h, Nat.add_comm, Nat.mul_comm]

/-- QUERY's result as one number: each constant is at most 64, so it stays inside its slot of 8 bits (R57). -/
theorem queryWord_eq (L : Layout) (i : Nat) (h : i < L.n) :
    queryWord L i = BitVec.ofNat 64 (L.len i + L.offset i * 2 ^ 8 + L.n * 2 ^ 16 + L.total * 2 ^ 24 +
      L.sw * 2 ^ 32) := by
  have hend := L.field_end_le_total i h
  have htotal := L.total_le
  have hn := L.n_le
  rw [queryWord, ofNat_or_shiftLeft _ (by omega), ofNat_or_shiftLeft _ (by omega),
    ofNat_or_shiftLeft _ (by omega), ofNat_or_shiftLeft _ (by omega)]

/-! ### The command -/

/-- A command word with a reserved bit set is answered with ILLEGAL, whatever its opcode (R77, R80). -/
theorem acceptCommand_of_reservedBits {c : Command} (s : State) (h : 512 ≤ c.cmd.toNat) :
    acceptCommand c s = .next (raise .illegal s) :=
  acceptCommand_of_error s (decode_reservedBits c h)

theorem decode_query {c : Command} (hop : c.cmd.toNat % 8 = 5) (h : c.cmd.toNat < 512) :
    decode c = .ok (.query (c.cmd.toNat / 8)) := by
  rw [decode_byOpcode c h, hop]
  rfl

/-- Settles O11: the index check, then the slots as a sum. -/
theorem queryReportsTheLayout : Obligations.QueryReportsTheLayout := by
  rintro s c i hop rfl
  refine ⟨acceptCommand_of_reservedBits s, decode_query hop, exec_query_of_ge _ s, fun h => ?_⟩
  rw [exec_query_of_lt _ s h, queryWord_eq s.layout _ h]
  rfl

end Sys2Proof.Machine
end

section
/-! PROOFS, family 41_field_access: the overflow detector (R61) and the field commands GET, SET and SETB
(R63 to R65). -/

namespace Sys2Proof

/-- No field is empty (R50, check 2). -/
theorem Layout.len_pos (L : Layout) (i : Nat) (h : i < L.n) : 1 ≤ L.len i :=
  (L.width_mem _ (L.len_mem i h)).1

namespace Machine

/-! ### The overflow detector -/

theorem fieldOvf_iff_truncField_ne (L : Layout) (v : Word) (i : Nat) :
    fieldOvf L v i = true ↔ truncField L v i ≠ v :=
  bne_iff_ne

theorem fieldOvf_iff_le (L : Layout) (v : Word) (i : Nat) (h : i < L.n) :
    fieldOvf L v i = true ↔ 2 ^ L.len i ≤ v.toNat := by
  rw [fieldOvf_eq L v i h, decide_eq_true_iff]

/-- A word is `2^w` or more exactly if it has a one-bit at or above bit `w`. -/
theorem le_toNat_iff_exists_getLsbD (v : Word) (w : Nat) :
    2 ^ w ≤ v.toNat ↔ ∃ k, w ≤ k ∧ k < 64 ∧ v.getLsbD k = true := by
  rw [← not_lt, ← forall_getLsbD_iff_lt]
  push Not
  refine exists_congr fun k => and_congr_right fun _ => ?_
  rw [ne_eq, Bool.not_eq_false]
  exact ⟨fun hbit => ⟨BitVec.lt_of_getLsbD hbit, hbit⟩, And.right⟩

/-- A field of all 64 bits takes every word (R61). -/
theorem fieldOvf_of_len_64 (L : Layout) (v : Word) (i : Nat) (h : i < L.n) (hlen : L.len i = 64) :
    fieldOvf L v i = false := by
  rw [fieldOvf_eq L v i h, hlen]
  exact decide_eq_false (Nat.not_le.2 v.isLt)

/-- Settles O28: the comparison with 2^LENGTH links the detector to the bits at or above LENGTH. -/
theorem overflowDetectorChecksAllBits : Obligations.OverflowDetectorChecksAllBits := fun L v i h =>
  ⟨rfl, fieldOvf_iff_truncField_ne L v i,
    (fieldOvf_iff_le L v i h).trans (le_toNat_iff_exists_getLsbD v (L.len i)),
    fieldOvf_iff_le L v i h, fieldOvf_of_len_64 L v i h⟩

/-! ### GET -/

theorem decode_get {c : Command} (hop : c.cmd.toNat % 8 = 1) (h : c.cmd.toNat < 512) :
    decode c = .ok (.get (c.cmd.toNat / 8)) := by
  rw [decode_byOpcode c h, hop]
  rfl

/-- EXTRACT as a number (R60). -/
theorem extract_toNat (L : Layout) (s : BitVec L.sw) (i : Nat) (h : i < L.n) :
    (extract L s i).toNat = s.toNat / 2 ^ L.offset i % 2 ^ L.len i := by
  rw [extract, BitVec.toNat_and, L.mask_toNat i h, Nat.and_two_pow_sub_one_eq_mod, BitVec.toNat_ushiftRight,
    Nat.shiftRight_eq_div_pow]

theorem fieldValue_eq (s : State) (i : Nat) (h : i < s.layout.n) :
    fieldValue s i = BitVec.ofNat 64 (s.store.toNat / 2 ^ s.layout.offset i % 2 ^ s.layout.len i) := by
  rw [← extract_toNat s.layout s.store i h, BitVec.ofNat_toNat, fieldValue]

/-- Settles O7: the index check, then the extracted field as a number. -/
theorem getReadsItsField : Obligations.GetReadsItsField := by
  rintro s c i hop rfl
  refine ⟨acceptCommand_of_reservedBits s, decode_get hop, exec_get_of_ge _ s, fun h => ?_⟩
  rw [exec_get_of_lt _ s h, fieldValue_eq s _ h]
  rfl

/-! ### SET -/

theorem decode_set {c : Command} (hop : c.cmd.toNat % 8 = 2) (h : c.cmd.toNat < 512) :
    decode c = .ok (.set (c.cmd.toNat / 8) c.wdata) := by
  rw [decode_byOpcode c h, hop]
  rfl

/-- Settles O8: the index check, the overflow check, then the bits of INSERT. -/
theorem setWritesItsFieldOrOverflows : Obligations.SetWritesItsFieldOrOverflows := by
  rintro s c i v hop rfl rfl
  exact ⟨acceptCommand_of_reservedBits s, decode_set hop, exec_set_of_ge _ _ s, exec_set_of_wide _ _ s,
    fun h hv => ⟨_, exec_set_of_fits _ _ s h hv, fun k hk => insert_getLsbD s.layout s.store _ _ k h hk⟩⟩

/-! ### SETB -/

theorem decode_setb {c : Command} (hop : c.cmd.toNat % 8 = 3) (h : c.cmd.toNat < 512) :
    decode c = .ok (.setb (c.cmd.toNat / 8) (c.wdata.getLsbD 0)) := by
  rw [decode_byOpcode c h, hop]
  rfl

/-- SETB's value fits every field, and so never overflows (R65). -/
theorem boolWord_fits (L : Layout) (i : Nat) (b : Bool) (h : i < L.n) : (boolWord b).toNat < 2 ^ L.len i :=
  have hb : (boolWord b).toNat < 2 ^ 1 := by cases b <;> decide
  hb.trans_le (Nat.pow_le_pow_right (by decide) (L.len_pos i h))

theorem boolWord_getLsbD (b : Bool) (k : Nat) : (boolWord b).getLsbD k = (decide (k = 0) && b) := by
  cases b with
  | false => simp [boolWord]
  | true => simp [boolWord, BitVec.getLsbD_one]

/-- SETB is SET of its boolean as a word, whatever the index (R65). -/
theorem exec_setb_eq_exec_set (i : Nat) (b : Bool) (s : State) :
    exec (.setb i b) s = exec (.set i (boolWord b)) s := by
  rcases Nat.lt_or_ge i s.layout.n with h | h
  · rw [exec_setb_of_lt i b s h, exec_set_of_fits i _ s h (boolWord_fits s.layout i b h)]
  · rw [exec_setb_of_ge i b s h, exec_set_of_ge i _ s h]

/-- INSERT of a boolean: the field's lowest bit becomes it and the field's other bits 0. -/
theorem insert_boolWord_getLsbD (L : Layout) (s : BitVec L.sw) (i : Nat) (b : Bool) (k : Nat) (h : i < L.n)
    (hk : k < L.sw) :
    (insert L s i (boolWord b)).getLsbD k =
      if k = L.offset i then b
      else if L.offset i < k ∧ k < L.offset i + L.len i then false
      else s.getLsbD k := by
  have hlen := L.len_pos i h
  rw [insert_getLsbD L s i _ k h hk, boolWord_getLsbD]
  rcases lt_trichotomy k (L.offset i) with hlt | heq | hgt
  · rw [if_neg (by omega), if_neg (by omega), if_neg (by omega)]
  · rw [if_pos (by omega), if_pos heq]
    simp [heq]
  · have hne : k - L.offset i ≠ 0 := by omega
    simp [hgt, hgt.le, hgt.ne', hne]

/-- Settles O9: SETB is SET of a value that always fits, and INSERT writes that value's bits. -/
theorem setbWritesItsBoolean : Obligations.SetbWritesItsBoolean := by
  rintro s c i b hop rfl rfl
  exact ⟨acceptCommand_of_reservedBits s, decode_setb hop, exec_setb_eq_exec_set _ _ s, exec_setb_of_ge _ _ s,
    fun h => ⟨_, exec_setb_of_lt _ _ s h, fun k hk => insert_boolWord_getLsbD s.layout s.store _ _ k h hk⟩⟩

end Machine

end Sys2Proof
end

section
/-! PROOFS, family 42_word_and_control: the whole-word and control commands NOP, LOAD and RDWORD (R69 to R71). -/

namespace Sys2Proof.Machine

/-! ### NOP -/

/-- FIDX and WDATA are ignored (R69). -/
theorem decode_nop {c : Command} (hop : c.cmd.toNat % 8 = 0) (h : c.cmd.toNat < 512) : decode c = .ok .nop := by
  rw [decode_byOpcode c h, hop]
  rfl

/-- Settles O6: the RSVD check, then a response and no other change. -/
theorem nopRespondsAndChangesNothing : Obligations.NopRespondsAndChangesNothing := fun s _ hop =>
  ⟨acceptCommand_of_reservedBits s, decode_nop hop, rfl, exec_nop s⟩

/-! ### LOAD -/

/-- FIDX is ignored (R70). -/
theorem decode_load {c : Command} (hop : c.cmd.toNat % 8 = 4) (h : c.cmd.toNat < 512) :
    decode c = .ok (.load c.wdata) := by
  rw [decode_byOpcode c h, hop]
  rfl

/-- Settles O10: the RSVD check, the overflow check, then the operand as the new STORE. -/
theorem loadWritesTheWordOrOverflows : Obligations.LoadWritesTheWordOrOverflows := by
  rintro s c v hop rfl
  refine ⟨acceptCommand_of_reservedBits s, decode_load hop, rfl, exec_load_of_wide _ s, fun hv => ?_⟩
  rw [exec_load_of_fits _ s hv, BitVec.ofNat_toNat]
  rfl

/-! ### RDWORD -/

/-- FIDX and WDATA are ignored (R71). -/
theorem decode_rdword {c : Command} (hop : c.cmd.toNat % 8 = 6) (h : c.cmd.toNat < 512) :
    decode c = .ok .rdword := by
  rw [decode_byOpcode c h, hop]
  rfl

theorem storeValue_eq (s : State) : storeValue s = BitVec.ofNat 64 s.store.toNat :=
  (BitVec.ofNat_toNat 64 s.store).symm

/-- The bits of STORE at or above TOTAL are zero exactly if STORE is a number below 2^TOTAL. -/
theorem paddingZero_iff_lt (s : State) : paddingZero s ↔ s.store.toNat < 2 ^ s.layout.total := by
  rw [paddingZero, ← BitVec.toNat_inj, BitVec.toNat_ushiftRight, Nat.shiftRight_eq_div_pow]
  exact Nat.div_eq_zero_iff_lt (Nat.two_pow_pos _)

/-- Settles O12: the RSVD check, then STORE as a number in the response. -/
theorem rdwordReadsTheWord : Obligations.RdwordReadsTheWord := by
  intro s c hop
  refine ⟨acceptCommand_of_reservedBits s, decode_rdword hop, rfl, ?_, wordO_eq s, (paddingZero_iff_lt s).1⟩
  rw [exec_rdword s, storeValue_eq s]
  rfl

end Sys2Proof.Machine
end

section
/-! PROOFS, family 60_exceptions: which error a command raises (R77, R78, R80), what raising it does (R76),
and `fault_o` (R83). -/

namespace Sys2Proof.Machine

/-! ### Illegal words -/

/-- A set reserved bit or the reserved opcode makes a word no instruction (R77). -/
theorem exists_decode_error {c : Command} (h : 512 ≤ c.cmd.toNat ∨ c.cmd.toNat % 8 = 7) :
    ∃ r, decode c = .error r := by
  rcases Nat.lt_or_ge c.cmd.toNat 512 with hlt | hge
  · have hop : c.cmd.toNat % 8 = 7 := h.resolve_left (Nat.not_le.2 hlt)
    refine ⟨.reservedOpcode, ?_⟩
    rw [decode_byOpcode c hlt, hop]
    rfl
  · exact ⟨_, decode_reservedBits c hge⟩

/-- Settles O13: a refused word is accepted and answered by raising ILLEGAL. -/
theorem illegalWordsRaiseIllegal : Obligations.IllegalWordsRaiseIllegal := by
  intro s c h
  obtain ⟨r, hr⟩ := exists_decode_error h
  exact ⟨⟨r, hr⟩, acceptCommand_of_error s hr⟩

/-! ### The answer to a command -/

/-- The error code a BFU of layout `L` answers an instruction with: the index check first, then the overflow
check (R80). -/
def instrAnswer (L : Layout) : Instr → ErrCode
  | .nop => .ok
  | .get i => if L.n ≤ i then .badidx else .ok
  | .set i v => if L.n ≤ i then .badidx else if 2 ^ L.len i ≤ v.toNat then .ovf else .ok
  | .setb i _ => if L.n ≤ i then .badidx else .ok
  | .load v => if 2 ^ L.total ≤ v.toNat then .ovf else .ok
  | .query i => if L.n ≤ i then .badidx else .ok
  | .rdword => .ok

/-- A field command that cannot fail past its index check answers BADIDX or OK (R78). -/
theorem withField_rspErr (i : Nat) (s : State) {run : State → State} (hok : (run s).rspErr = .ok) :
    (withField i s run).rspErr = if s.layout.n ≤ i then .badidx else .ok := by
  rcases Nat.lt_or_ge i s.layout.n with h | h
  · rw [withField_of_lt i s run h, hok, if_neg (Nat.not_le.2 h)]
  · rw [withField_of_ge i s run h, if_pos h]
    rfl

theorem exec_answer (i : Instr) (s : State) :
    ∃ t, exec i s = .next t ∧ t.rspErr = instrAnswer s.layout i := by
  cases i with
  | nop => exact ⟨_, exec_nop s, rfl⟩
  | get i => exact ⟨_, rfl, withField_rspErr i s rfl⟩
  | set i v =>
    rcases Nat.lt_or_ge i s.layout.n with h | h
    · rcases Nat.lt_or_ge v.toNat (2 ^ s.layout.len i) with hv | hv
      · exact ⟨_, exec_set_of_fits i v s h hv,
          ((if_neg (Nat.not_le.2 h)).trans (if_neg (Nat.not_le.2 hv))).symm⟩
      · exact ⟨_, exec_set_of_wide i v s h hv, ((if_neg (Nat.not_le.2 h)).trans (if_pos hv)).symm⟩
    · exact ⟨_, exec_set_of_ge i v s h, (if_pos h).symm⟩
  | setb i b => exact ⟨_, rfl, withField_rspErr i s rfl⟩
  | load v =>
    rcases Nat.lt_or_ge v.toNat (2 ^ s.layout.total) with hv | hv
    · exact ⟨_, exec_load_of_fits v s hv, (if_neg (Nat.not_le.2 hv)).symm⟩
    · exact ⟨_, exec_load_of_wide v s hv, (if_pos hv).symm⟩
  | query i => exact ⟨_, rfl, withField_rspErr i s rfl⟩
  | rdword => exact ⟨_, exec_rdword s, rfl⟩

/-- The error code a BFU of layout `L` answers a command with: ILLEGAL first, for a word the decoder refuses
(R80). -/
def commandAnswer (L : Layout) (c : Command) : ErrCode :=
  match decode c with
  | .error _ => .illegal
  | .ok i => instrAnswer L i

theorem acceptCommand_answer (c : Command) (s : State) :
    ∃ t, acceptCommand c s = .next t ∧ t.rspErr = commandAnswer s.layout c := by
  unfold commandAnswer
  cases hd : decode c with
  | error r => exact ⟨_, acceptCommand_of_error s hd, rfl⟩
  | ok i =>
    obtain ⟨t, ht, he⟩ := exec_answer i s
    exact ⟨t, (acceptCommand_of_decode s hd).trans ht, he⟩

/-- The answer read off the command word: the decoder's opcodes against R78's GET, SET, SETB and QUERY and
R79's SET and LOAD. -/
theorem commandAnswer_eq (L : Layout) (c : Command) :
    commandAnswer L c =
      if 512 ≤ c.cmd.toNat ∨ c.cmd.toNat % 8 = 7 then .illegal
      else if c.cmd.toNat % 8 ∈ [1, 2, 3, 5] ∧ L.n ≤ c.cmd.toNat / 8 then .badidx
      else if (c.cmd.toNat % 8 = 2 ∧ 2 ^ L.len (c.cmd.toNat / 8) ≤ c.wdata.toNat) ∨
          (c.cmd.toNat % 8 = 4 ∧ 2 ^ L.total ≤ c.wdata.toNat) then .ovf
      else .ok := by
  by_cases hill : 512 ≤ c.cmd.toNat ∨ c.cmd.toNat % 8 = 7
  · obtain ⟨r, hr⟩ := exists_decode_error hill
    rw [if_pos hill, commandAnswer, hr]
  · obtain ⟨hrsvd, hop⟩ := not_or.1 hill
    have hlt : c.cmd.toNat < 512 := Nat.not_le.1 hrsvd
    have hop7 : c.cmd.toNat % 8 < 7 := by omega
    rw [if_neg hill, commandAnswer, decode_byOpcode c hlt]
    generalize c.cmd.toNat % 8 = op at hop7
    interval_cases op <;> simp [instrAnswer]

/-- Settles O14: the command is answered with its error code, which the decoder's opcodes give by R80. -/
theorem everyCommandAnswersByPriority : Obligations.EveryCommandAnswersByPriority := by
  intro s c
  obtain ⟨t, ht, he⟩ := acceptCommand_answer c s
  obtain ⟨u, hu, hr⟩ := acceptCommand_result c s
  cases hu.symm.trans ht
  exact ⟨t, ht, hr.rspValid, he.trans (commandAnswer_eq s.layout c)⟩

/-! ### What an error changes -/

/-- Raising an error is its response and its STATUS bit (R76). -/
theorem raise_eq (e : RunError) (s : State) :
    raise e s = { s with
      rspValid := true
      rspErr := e.errCode
      rspData := 0
      status := s.status |||
        (if e.errCode = .ovf then 0b001 else if e.errCode = .badidx then 0b010 else 0b100) } := by
  rw [← statusWith_eq]
  rfl

/-- Settles O15: of the three things a command can do, only raising an error answers one. -/
theorem anErrorOnlyReportsItself : Obligations.AnErrorOnlyReportsItself := by
  intro s t c h herr
  obtain ⟨u, hu, hr⟩ := acceptCommand_result c s
  cases hu.symm.trans h
  cases hr with
  | error e => exact raise_eq e s
  | result d => exact absurd rfl herr
  | write w hw => exact absurd rfl herr

/-! ### The fault output -/

theorem statusWith_ne_zero (e : RunError) (st : BitVec 3) : statusWith e st ≠ 0 := by
  revert st
  cases e <;> decide

/-- After a command, `fault_o` is 1 if it was before or the command answered an error (R83). -/
theorem CommandResult.faultO_eq_or {s t : State} (h : CommandResult s t) :
    faultO t = (faultO s || t.rspErr != .ok) := by
  cases h with
  | error e =>
    have hfault : faultO (raise e s) = true :=
      (faultO_eq _).trans (bne_iff_ne.2 (statusWith_ne_zero e s.status))
    rw [hfault, raise_rspErr, bne_iff_ne.2 (errCode_ne_ok e), Bool.or_true]
  | result d => simp
  | write w hw => simp

/-- Settles O17, along the three kinds of edge. -/
theorem faultOutputRisesWithTheFirstError : Obligations.FaultOutputRisesWithTheFirstError := by
  intro s p
  obtain ⟨t, ht, hr⟩ := clockEdge_result p s
  refine ⟨t, ht, faultO_eq s, ?_⟩
  cases hr with
  | reset hrst => simp [hrst]
  | idle hrst hv => simp [hrst, hv]
  | command _ hrst hv _ hc => rw [hc.faultO_eq_or, hrst, hv, Bool.not_false, Bool.true_and, Bool.true_and]

end Sys2Proof.Machine
end

section
/-! PROOFS, family 70_reset_and_hazards: what the ports show after a reset edge (R87), and that a second one
changes nothing (R88). -/

namespace Sys2Proof.Machine

/-! ### What a reset edge leaves -/

@[simp] theorem resetEdge_resetEdge (s : State) : resetEdge (resetEdge s) = resetEdge s := rfl

@[simp] theorem storeValue_resetEdge (s : State) : storeValue (resetEdge s) = 0 := by
  simp [storeValue]

theorem rspErrO_resetEdge (s : State) : rspErrO (resetEdge s) = 0b00 := rfl

theorem faultO_resetEdge (s : State) : faultO (resetEdge s) = false := by
  rw [faultO_eq, resetEdge_status, bne_self_eq_false]

/-! ### The obligation -/

/-- Settles O36: each edge is `resetEdge`, whatever else the ports present, and `resetEdge` is idempotent. -/
theorem resetEdgeGivesTheResetState : Obligations.ResetEdgeGivesTheResetState := by
  intro s p q hp hq
  have hfirst : clockEdge p s = .next (resetEdge s) := clockEdge_of_rst s hp
  have hsecond : clockEdge q (resetEdge s) = .next (resetEdge s) := by
    rw [clockEdge_of_rst (resetEdge s) hq, resetEdge_resetEdge]
  exact ⟨resetEdge s, hfirst, hsecond, resetEdge_layout s, storeValue_resetEdge s, resetEdge_store s,
    resetEdge_status s, resetEdge_status s, resetEdge_rspValid s, rspErrO_resetEdge s,
    resetEdge_rspData s, faultO_resetEdge s⟩

end Sys2Proof.Machine
end

section
/-! PROOFS, family other: the encoder, the decoder and the opcode table (R38 to R41). -/

namespace Sys2Proof

/-! ### Command words without reserved bits -/

/-- A word with RSVD = 0 is FIDX*8 + OP (R38). -/
theorem exists_eq_cmdWord {w : CmdWord} (h : w.toNat < 512) :
    ∃ f op, f < 64 ∧ op < 8 ∧ w = cmdWord f op := by
  have hop : w.toNat % 8 < 8 := Nat.mod_lt _ (by decide)
  have hf : w.toNat / 8 < 64 := by omega
  refine ⟨w.toNat / 8, w.toNat % 8, hf, hop, BitVec.eq_of_toNat_eq ?_⟩
  rw [cmdWord_toNat _ _ hf hop]
  omega

theorem toNat_lt_of_decode {c : Command} {i : Instr} (h : decode c = .ok i) : c.cmd.toNat < 512 := by
  by_contra hge
  cases (decode_reservedBits c (Nat.not_lt.1 hge)).symm.trans h

/-- The bits of OP alone are the word with FIDX = 0. -/
theorem cmdWord_and_opMask {f op : Nat} (hf : f < 64) (ho : op < 8) :
    cmdWord f op &&& 0x0007 = cmdWord 0 op := by
  apply BitVec.eq_of_toNat_eq
  rw [BitVec.toNat_and, cmdWord_toNat f op hf ho, cmdWord_toNat 0 op (by decide) ho]
  exact (Nat.and_two_pow_sub_one_eq_mod (f * 8 + op) 3).trans (by omega)

theorem and_one_eq_ite (d : Word) : d &&& 1 = if d.getLsbD 0 then 1 else 0 := by
  rw [BitVec.ofNat_eq_ofNat, BitVec.and_one_eq_setWidth_ofBool_getLsbD]
  cases d.getLsbD 0 <;> rfl

/-- Settles O1. -/
theorem decodeAfterEncodeIsIdentity : Obligations.DecodeAfterEncodeIsIdentity :=
  decode_encode

/-- Settles O2: a word that decodes is FIDX*8 + OP, and its opcode says which operands stay. -/
theorem encodeAfterDecodeKeepsUsedBits : Obligations.EncodeAfterDecodeKeepsUsedBits := by
  rintro ⟨w, d⟩ i h
  obtain ⟨f, op, hf, ho, rfl⟩ := exists_eq_cmdWord (toNat_lt_of_decode h)
  have hwf : fidxFits f = true := decide_eq_true hf
  have hmask := cmdWord_and_opMask hf ho
  rw [decode_cmdWord f op d hf ho] at h
  interval_cases op <;> cases h
  · exact ⟨rfl, congrArg₂ Command.mk hmask.symm BitVec.and_zero.symm⟩
  · exact ⟨hwf, congrArg₂ Command.mk rfl BitVec.and_zero.symm⟩
  · exact ⟨hwf, congrArg₂ Command.mk rfl BitVec.and_allOnes.symm⟩
  · exact ⟨hwf, congrArg₂ Command.mk rfl (and_one_eq_ite d).symm⟩
  · exact ⟨rfl, congrArg₂ Command.mk hmask.symm BitVec.and_allOnes.symm⟩
  · exact ⟨hwf, congrArg₂ Command.mk rfl BitVec.and_zero.symm⟩
  · exact ⟨rfl, congrArg₂ Command.mk hmask.symm BitVec.and_zero.symm⟩

/-! ### The opcode table -/

/-- The bits that every row of the opcode table fixes: OP and RSVD (R39). -/
def rowMask : CmdWord := 0xFE07

theorem covers_eq_of_mem {r : OpcodeRow} (hr : r ∈ opcodeRows) (w : CmdWord) :
    r.covers w = (w &&& rowMask == r.matchBits) := by
  have hmask : ∀ r ∈ opcodeRows, r.mask = rowMask := by decide
  rw [OpcodeRow.covers, hmask r hr]

/-- The rows that cover a word depend on its OP and RSVD bits alone. -/
theorem filter_covers_eq {w w' : CmdWord} (h : w &&& rowMask = w' &&& rowMask) :
    (opcodeRows.filter fun r => r.covers w) = opcodeRows.filter fun r => r.covers w' :=
  List.filter_congr fun r hr => by rw [covers_eq_of_mem hr, covers_eq_of_mem hr, h]

theorem cmdWord_and_rowMask {f op : Nat} (hf : f < 64) (ho : op < 8) :
    cmdWord f op &&& rowMask = cmdWord 0 op &&& rowMask := by
  have hall : ∀ (f : Fin 64) (op : Fin 8), cmdWord f op &&& rowMask = cmdWord 0 op &&& rowMask := by decide
  exact hall ⟨f, hf⟩ ⟨op, ho⟩

theorem rsvdOf_and_rowMask (w : CmdWord) : rsvdOf (w &&& rowMask) = rsvdOf w := by
  rw [rsvdOf, BitVec.extractLsb'_and]
  exact BitVec.and_allOnes

/-- No row covers a word with a reserved bit set (R41). -/
theorem filter_covers_of_reservedBits {w : CmdWord} (h : 512 ≤ w.toNat) :
    (opcodeRows.filter fun r => r.covers w) = [] := by
  rw [List.filter_eq_nil_iff]
  intro r hr hc
  rw [covers_eq_of_mem hr, beq_iff_eq] at hc
  have hrow : ∀ r ∈ opcodeRows, rsvdOf r.matchBits = 0 := by decide
  exact (rsvdOf_ne_zero_iff w).2 h (by rw [← rsvdOf_and_rowMask, hc, hrow r hr])

/-- Settles O3: no row covers a word with a reserved bit; of every other word the opcode selects the row. -/
theorem decoderFollowsTheOpcodeTable : Obligations.DecoderFollowsTheOpcodeTable := by
  rintro ⟨w, d⟩
  rcases Nat.lt_or_ge w.toNat 512 with hw | hw
  · obtain ⟨f, op, hf, ho, rfl⟩ := exists_eq_cmdWord hw
    rw [filter_covers_eq (cmdWord_and_rowMask hf ho), decode_cmdWord f op d hf ho]
    interval_cases op <;> rfl
  · rw [filter_covers_of_reservedBits hw, decode_reservedBits _ hw]
    rfl

/-- Settles O5, by evaluation of the decoder on each word. -/
theorem writtenOutWordsDecode : Obligations.WrittenOutWordsDecode :=
  ⟨rfl, rfl, rfl, rfl, rfl, rfl, rfl, rfl, rfl⟩

end Sys2Proof
end

section
/-! PROOFS, family other: the ranges of the layout constants and the tiling of the word (40_layout.md R58, R59). -/

namespace Sys2Proof

/-- OFFSET leaves room for the field below bit 64 (R58). -/
theorem Layout.offset_le (L : Layout) (i : Nat) (h : i < L.n) : L.offset i ≤ 63 := by
  have hend := L.field_end_le_total i h
  have hlen := L.len_pos i h
  have htotal := L.total_le
  omega

/-- Settles O26. -/
theorem layoutRangeLaws : Obligations.LayoutRangeLaws := fun L =>
  ⟨L.hasField_true, L.n_le, L.total_pos, L.total_le_sw, L.sw_le, fun i h =>
    ⟨L.len_pos i h, L.len_le i h, L.offset_le i h, L.field_end_le_total i h, L.len_le_sw i h⟩⟩

/-- Different fields lie one below the other. -/
theorem Layout.fields_disjoint (L : Layout) {i j : Nat} (hi : i < L.n) (hj : j < L.n) (hij : i ≠ j) :
    L.offset i + L.len i ≤ L.offset j ∨ L.offset j + L.len j ≤ L.offset i :=
  (Nat.lt_or_gt_of_ne hij).imp (L.field_end_le_offset i j · hj) (L.field_end_le_offset j i · hi)

/-- The fields below OFFSET[m] leave no gap. -/
theorem Layout.exists_field_of_lt_offset (L : Layout) {k m : Nat} (hm : m ≤ L.n) (hk : k < L.offset m) :
    ∃ i, i < L.n ∧ L.offset i ≤ k ∧ k < L.offset i + L.len i := by
  induction m with
  | zero =>
    rw [L.offset_zero] at hk
    exact absurd hk (Nat.not_lt_zero k)
  | succ m ih =>
    rcases Nat.lt_or_ge k (L.offset m) with hlt | hge
    · exact ih (Nat.le_of_succ_le hm) hlt
    · exact ⟨m, hm, hge, L.offset_succ m hm ▸ hk⟩

/-- Settles O27: fields lie one below the other, and they leave no gap below TOTAL. -/
theorem fieldsTileTheWord : Obligations.FieldsTileTheWord := by
  refine fun L => ⟨fun i j hi hj hij => ?_, fun k => ⟨fun hk => ?_, ?_⟩⟩
  · apply BitVec.eq_of_getLsbD_eq
    intro k _
    have hdisj := L.fields_disjoint hi hj hij
    simp only [BitVec.getLsbD_and, L.fmask_getLsbD, ← Bool.decide_and, BitVec.ofNat_eq_ofNat,
      BitVec.getLsbD_zero, decide_eq_false_iff_not]
    omega
  · obtain ⟨i, hi, hbit⟩ := L.exists_field_of_lt_offset le_rfl (L.offset_n ▸ hk)
    exact ⟨i, hi, (L.fmask_getLsbD_iff i k hi).2 hbit⟩
  · rintro ⟨i, hi, hbit⟩
    exact ((L.fmask_getLsbD_iff i k hi).1 hbit).2.trans_le (L.field_end_le_total i hi)

end Sys2Proof
end

section
/-! PROOFS, family other: the inserter against EXTRACT, and the laws over several field writes
(41_field_access.md R62 and section 3, 20_memory.md section 2). -/

namespace Sys2Proof.Machine

/-! ### INSERT -/

/-- INSERT at every bit: past STORE's width both sides have none. -/
theorem insert_bit (L : Layout) (s : BitVec L.sw) (i : Nat) (t : Word) (k : Nat) (h : i < L.n) :
    (insert L s i t).getLsbD k =
      if L.offset i ≤ k ∧ k < L.offset i + L.len i then t.getLsbD (k - L.offset i) else s.getLsbD k := by
  rcases Nat.lt_or_ge k L.sw with hk | hk
  · exact insert_getLsbD L s i t k h hk
  · have hend := L.field_end_le_sw i h
    rw [if_neg (by omega), BitVec.getLsbD_of_ge _ _ hk, BitVec.getLsbD_of_ge _ _ hk]

/-- Outside FMASK INSERT leaves every bit (R62). -/
theorem insert_and_not_fmask (L : Layout) (s : BitVec L.sw) (i : Nat) (t : Word) (h : i < L.n) :
    insert L s i t &&& ~~~(L.fmask i) = s &&& ~~~(L.fmask i) := by
  apply BitVec.eq_of_getLsbD_eq
  intro k _
  rw [BitVec.getLsbD_and, BitVec.getLsbD_and, insert_bit L s i t k h]
  by_cases hin : L.offset i ≤ k ∧ k < L.offset i + L.len i
  · rw [BitVec.getLsbD_not, (L.fmask_getLsbD_iff i k h).2 hin, Bool.not_true, Bool.and_false, Bool.and_false,
      Bool.and_false]
  · rw [if_neg hin]

/-- Settles O29. -/
theorem insertWritesOnlyItsField : Obligations.InsertWritesOnlyItsField := fun L s i t h =>
  ⟨rfl, insert_and_not_fmask L s i t h, extract_insert_same L s i t h⟩

/-- INSERT into one field leaves every other field. -/
theorem extract_insert_ne (L : Layout) (s : BitVec L.sw) {i j : Nat} (t : Word) (hi : i < L.n) (hj : j < L.n)
    (hij : i ≠ j) : extract L (insert L s i t) j = extract L s j := by
  apply BitVec.eq_of_getLsbD_eq
  intro k _
  have hdisj := L.fields_disjoint hi hj hij
  rw [extract_getLsbD, extract_getLsbD]
  by_cases hk : k < L.len j
  · rw [insert_bit L s i t _ hi, if_neg (by omega)]
  · simp [hk]

/-- INSERT leaves the padding. -/
theorem insert_ushiftRight_total (L : Layout) (s : BitVec L.sw) (i : Nat) (t : Word) (h : i < L.n) :
    insert L s i t >>> L.total = s >>> L.total := by
  apply BitVec.eq_of_getLsbD_eq
  intro k _
  have hend := L.field_end_le_total i h
  rw [BitVec.getLsbD_ushiftRight, BitVec.getLsbD_ushiftRight, insert_bit L s i t _ h, if_neg (by omega)]

/-- Of two INSERTs into one field the later wins. -/
theorem insert_insert_same (L : Layout) (s : BitVec L.sw) (i : Nat) (t u : Word) (h : i < L.n) :
    insert L (insert L s i t) i u = insert L s i u := by
  apply BitVec.eq_of_getLsbD_eq
  intro k _
  rw [insert_bit L _ i u k h, insert_bit L s i u k h, insert_bit L s i t k h]
  split_ifs <;> rfl

/-- INSERTs into different fields commute. -/
theorem insert_comm (L : Layout) (s : BitVec L.sw) {i j : Nat} (t u : Word) (hi : i < L.n) (hj : j < L.n)
    (hij : i ≠ j) : insert L (insert L s i t) j u = insert L (insert L s j u) i t := by
  apply BitVec.eq_of_getLsbD_eq
  intro k _
  have hdisj := L.fields_disjoint hi hj hij
  rw [insert_bit L _ j u k hj, insert_bit L s i t k hi, insert_bit L _ i t k hi, insert_bit L s j u k hj]
  split_ifs
  · omega
  all_goals rfl

/-! ### SET, then GET -/

/-- The command of a SET that fits writes its field (R64). -/
theorem acceptCommand_set_of_fits (i : Nat) (v : Word) (s : State) (h : i < s.layout.n)
    (hv : v.toNat < 2 ^ s.layout.len i) :
    acceptCommand (encode (.set i v)) s =
      .next (respond .ok 0 (writeStore s (insert s.layout s.store i v))) :=
  have hwf : (Instr.set i v).wf = true := decide_eq_true (h.trans_le s.layout.n_le)
  (acceptCommand_encode _ s (decode_encode _ hwf)).trans (exec_set_of_fits i v s h hv)

/-- Settles O30. -/
theorem setThenGetReturnsTheValue : Obligations.SetThenGetReturnsTheValue := fun s i v h =>
  ⟨fun hv => ⟨_, _, exec_set_of_fits i v s h hv, rfl, exec_get_of_lt i _ h, rfl, fieldValue_insert s i v h hv⟩,
    fun hv => ⟨_, exec_set_of_wide i v s h hv, rfl⟩⟩

/-! ### What a field write leaves alone -/

/-- The padding bits as RDWORD would show them. -/
theorem storeValue_ushiftRight (s : State) (k : Nat) :
    storeValue s >>> k = (s.store >>> k).setWidth 64 := by
  apply BitVec.eq_of_toNat_eq
  have hsw := s.layout.sw_le
  rw [storeValue, BitVec.toNat_ushiftRight, BitVec.toNat_setWidth_of_le hsw, BitVec.toNat_setWidth_of_le hsw,
    BitVec.toNat_ushiftRight]

/-- SET of field `i`, OK or not, leaves field `j` and the padding. -/
theorem exec_set_leaves (s : State) {i j : Nat} (v : Word) (hij : i ≠ j) (hj : j < s.layout.n) :
    ∃ t, exec (.set i v) s = .next t ∧ fieldValue t j = fieldValue s j ∧
      storeValue t >>> t.layout.total = storeValue s >>> s.layout.total := by
  rcases Nat.lt_or_ge i s.layout.n with hi | hi
  · rcases Nat.lt_or_ge v.toNat (2 ^ s.layout.len i) with hv | hv
    · refine ⟨_, exec_set_of_fits i v s hi hv,
        congrArg (BitVec.setWidth 64) (extract_insert_ne s.layout s.store v hi hj hij), ?_⟩
      rw [storeValue_ushiftRight, storeValue_ushiftRight]
      exact congrArg (BitVec.setWidth 64) (insert_ushiftRight_total s.layout s.store i v hi)
    · exact ⟨_, exec_set_of_wide i v s hi hv, rfl, rfl⟩
  · exact ⟨_, exec_set_of_ge i v s hi, rfl, rfl⟩

/-- Settles O31: SETB is a SET. -/
theorem fieldWritesLeaveOtherFieldsAlone : Obligations.FieldWritesLeaveOtherFieldsAlone := by
  intro s i j v b hij hj
  rw [exec_setb_eq_exec_set]
  exact ⟨exec_set_leaves s v hij hj, exec_set_leaves s (boolWord b) hij hj⟩

/-- Settles O32: every SET answers with a write of an INSERT, and INSERTs commute or overwrite. -/
theorem fieldWritesCommuteAndLaterWins : Obligations.FieldWritesCommuteAndLaterWins := by
  intro s i j a b hi hj ha hb
  refine ⟨_, _, _, _, exec_set_of_fits i a s hi ha, exec_set_of_fits j b _ hj hb, exec_set_of_fits j b s hj hb,
    exec_set_of_fits i a _ hi ha, rfl, rfl, rfl, rfl, fun hij => ?_, fun hij => ?_⟩
  · exact congrArg (BitVec.setWidth 64) (insert_comm s.layout s.store a b hi hj hij)
  · subst hij
    exact congrArg (BitVec.setWidth 64) (insert_insert_same s.layout s.store i a b hi)

/-! ### A command twice in a row -/

theorem statusWith_statusWith (e : RunError) (st : BitVec 3) :
    statusWith e (statusWith e st) = statusWith e st := by
  rw [statusWith, statusWith, BitVec.or_assoc, BitVec.or_self]

@[simp] theorem raise_raise (e : RunError) (s : State) : raise e (raise e s) = raise e s :=
  congrArg (fun st => respond e.errCode 0 { s with status := st }) (statusWith_statusWith e s.status)

/-- What a layout makes answer with an error answers so twice, and the second time changes nothing. -/
theorem twice_of_raise (run : State → Host.Outcome State Fault Refusal) (e : RunError) (s : State)
    (h : ∀ u : State, u.layout = s.layout → run u = .next (raise e u)) :
    ∃ t, run s = .next t ∧ run t = .next t :=
  ⟨raise e s, h s rfl, (h (raise e s) rfl).trans (congrArg Host.Outcome.next (raise_raise e s))⟩

/-- A field written twice with one value is as after one write. -/
theorem exec_set_twice (i : Nat) (v : Word) (s : State) :
    ∃ t, exec (.set i v) s = .next t ∧ exec (.set i v) t = .next t := by
  rcases Nat.lt_or_ge i s.layout.n with h | h
  · rcases Nat.lt_or_ge v.toNat (2 ^ s.layout.len i) with hv | hv
    · refine ⟨_, exec_set_of_fits i v s h hv, Eq.trans (exec_set_of_fits i v _ h hv) ?_⟩
      exact congrArg (fun w => Host.Outcome.next (respond .ok 0 (writeStore s w)))
        (insert_insert_same s.layout s.store i v v h)
    · exact twice_of_raise _ .ovf s fun u hu => exec_set_of_wide i v u (hu ▸ h) (hu ▸ hv)
  · exact twice_of_raise _ .badidx s fun u hu => exec_set_of_ge i v u (hu ▸ h)

theorem exec_twice (i : Instr) (s : State) : ∃ t, exec i s = .next t ∧ exec i t = .next t := by
  cases i with
  | nop => exact ⟨_, exec_nop s, rfl⟩
  | get i =>
    rcases Nat.lt_or_ge i s.layout.n with h | h
    · exact ⟨_, exec_get_of_lt i s h, exec_get_of_lt i _ h⟩
    · exact twice_of_raise _ .badidx s fun u hu => exec_get_of_ge i u (hu ▸ h)
  | set i v => exact exec_set_twice i v s
  | setb i b =>
    obtain ⟨t, hs, ht⟩ := exec_set_twice i (boolWord b) s
    exact ⟨t, (exec_setb_eq_exec_set i b s).trans hs, (exec_setb_eq_exec_set i b t).trans ht⟩
  | load v =>
    rcases Nat.lt_or_ge v.toNat (2 ^ s.layout.total) with hv | hv
    · exact ⟨_, exec_load_of_fits v s hv, exec_load_of_fits v _ hv⟩
    · exact twice_of_raise _ .ovf s fun u hu => exec_load_of_wide v u (hu ▸ hv)
  | query i =>
    rcases Nat.lt_or_ge i s.layout.n with h | h
    · exact ⟨_, exec_query_of_lt i s h, exec_query_of_lt i _ h⟩
    · exact twice_of_raise _ .badidx s fun u hu => exec_query_of_ge i u (hu ▸ h)
  | rdword => exact ⟨_, exec_rdword s, rfl⟩

/-- Settles O33: a refused word raises ILLEGAL twice; an instruction is repeatable whatever it answers. -/
theorem repeatingACommandChangesNothing : Obligations.RepeatingACommandChangesNothing := by
  intro s c
  cases hd : decode c with
  | error r => exact twice_of_raise _ .illegal s fun u _ => acceptCommand_of_error u hd
  | ok i =>
    obtain ⟨t, hs, ht⟩ := exec_twice i s
    exact ⟨t, (acceptCommand_of_decode s hd).trans hs, (acceptCommand_of_decode t hd).trans ht⟩

end Sys2Proof.Machine
end

section
/-! PROOFS, family other: LOAD against SETs of all fields, and the copy of STORE from one BFU to another
(42_word_and_control.md R70, R71). -/

namespace Sys2Proof.Machine

/-! ### STORE as a 64-bit word -/

theorem storeValue_getLsbD (s : State) (k : Nat) : (storeValue s).getLsbD k = s.store.getLsbD k := by
  rw [storeValue, BitVec.getLsbD_setWidth]
  rcases Nat.lt_or_ge k 64 with hk | hk
  · rw [decide_eq_true hk, Bool.true_and]
  · rw [BitVec.getLsbD_of_ge _ _ (s.layout.sw_le.trans hk), Bool.and_false]

/-- A word below 2^TOTAL, written to STORE, is what RDWORD shows (R70, R71). -/
theorem storeValue_load (s : State) (v : Word) (hv : v.toNat < 2 ^ s.layout.total) :
    storeValue (respond .ok 0 (writeStore s (v.setWidth s.layout.sw))) = v := by
  apply BitVec.eq_of_toNat_eq
  have hsw : v.toNat < 2 ^ s.layout.sw := hv.trans_le (Nat.pow_le_pow_right (by decide) s.layout.total_le_sw)
  refine (BitVec.toNat_setWidth_of_le s.layout.sw_le).trans ?_
  exact (BitVec.toNat_setWidth _ _).trans (Nat.mod_eq_of_lt hsw)

theorem storeValue_toNat (s : State) : (storeValue s).toNat = s.store.toNat :=
  BitVec.toNat_setWidth_of_le s.layout.sw_le

/-! ### The copy law -/

/-- Settles O35: with zero padding STORE is below 2^TOTAL, so LOAD takes it. -/
theorem rdwordThenLoadCopies : Obligations.RdwordThenLoadCopies := by
  intro x y hlayout hpad
  have hfits : (storeValue x).toNat < 2 ^ y.layout.total := by
    rw [storeValue_toNat, ← hlayout]
    exact (paddingZero_iff_lt x).1 hpad
  exact ⟨_, _, exec_rdword x, rfl, exec_load_of_fits _ y hfits, rfl, storeValue_load y _ hfits, rfl⟩

/-! ### SETs of all fields -/

/-- The value of field `i` in the word `v`, as `LoadIsASetOfEveryField` hands it to SET. -/
def wordField (L : Layout) (v : Word) (i : Nat) : Word := (extract L (v.setWidth L.sw) i).setWidth 64

theorem wordField_fits (L : Layout) (v : Word) (i : Nat) (h : i < L.n) :
    (wordField L v i).toNat < 2 ^ L.len i := by
  rw [wordField, BitVec.toNat_setWidth_of_le L.sw_le, extract_toNat L _ i h]
  exact Nat.mod_lt _ (Nat.two_pow_pos _)

theorem wordField_getLsbD (L : Layout) (v : Word) (i k : Nat) (h : i < L.n) (hk : k < L.len i) :
    (wordField L v i).getLsbD k = v.getLsbD (L.offset i + k) := by
  have hend := L.field_end_le_sw i h
  have hsw := L.sw_le
  rw [wordField, BitVec.getLsbD_setWidth, extract_getLsbD, BitVec.getLsbD_setWidth,
    decide_eq_true (by omega), decide_eq_true ⟨by omega, hk⟩, decide_eq_true (by omega)]
  simp only [Bool.true_and]

/-- SET of field `i` to its value in `v` copies `v`'s bits of the field into STORE. -/
theorem acceptCommand_set_wordField (s : State) (v : Word) (i : Nat) (h : i < s.layout.n) :
    ∃ t, acceptCommand (encode (.set i (wordField s.layout v i))) s = .next t ∧
      t.rspErr = .ok ∧ t.rspData = 0 ∧ t.layout = s.layout ∧
      ∀ k, (storeValue t).getLsbD k =
        if s.layout.offset i ≤ k ∧ k < s.layout.offset i + s.layout.len i then v.getLsbD k
        else (storeValue s).getLsbD k := by
  refine ⟨_, acceptCommand_set_of_fits i _ s h (wordField_fits s.layout v i h), rfl, rfl, rfl, fun k => ?_⟩
  rw [storeValue_getLsbD, storeValue_getLsbD]
  refine (insert_bit s.layout s.store i _ k h).trans (if_ctx_congr Iff.rfl (fun hin => ?_) fun _ => rfl)
  rw [wordField_getLsbD s.layout v i _ h (by omega), Nat.add_sub_cancel' hin.1]

/-- The SETs of the first `m` fields copy the bits below OFFSET[m]. -/
theorem observeProgram_setFields (s : State) (v : Word) (m : Nat) (hm : m ≤ s.layout.n) :
    ∃ u, observeProgram ((List.range m).map fun i => encode (.set i (wordField s.layout v i))) s =
        .next (List.replicate m { err := .ok, data := 0 }, u) ∧ u.layout = s.layout ∧
      ∀ k, (storeValue u).getLsbD k =
        if k < s.layout.offset m then v.getLsbD k else (storeValue s).getLsbD k := by
  induction m with
  | zero => exact ⟨s, rfl, rfl, fun k => by simp⟩
  | succ m ih =>
    obtain ⟨u, hu, hlayout, hbits⟩ := ih (Nat.le_of_succ_le hm)
    obtain ⟨t, ht, herr, hdata, htlayout, htbits⟩ := acceptCommand_set_wordField u v m (hlayout ▸ hm)
    rw [hlayout] at ht htbits
    have hlast := observeProgram_cons ht (cs := []) rfl
    rw [herr, hdata] at hlast
    refine ⟨t, ?_, htlayout.trans hlayout, fun k => ?_⟩
    · rw [List.range_succ, List.map_append, List.replicate_succ']
      exact observeProgram_append hu hlast
    · have hoff := s.layout.offset_succ m hm
      rw [htbits k, hbits k, hoff]
      rcases Nat.lt_or_ge k (s.layout.offset m) with hlow | hge
      · rw [if_neg (by omega), if_pos hlow, if_pos (by omega)]
      · simp only [hge, true_and, Nat.not_lt.2 hge, if_false]

/-- Settles O34: after the last SET STORE has the bits of `v` below TOTAL, and above them both are zero. -/
theorem loadIsASetOfEveryField : Obligations.LoadIsASetOfEveryField := by
  intro s v hpad hv
  obtain ⟨u, hu, -, hbits⟩ := observeProgram_setFields s v s.layout.n le_rfl
  have hstore : (storeValue s).toNat < 2 ^ s.layout.total := by
    rw [storeValue_toNat]
    exact (paddingZero_iff_lt s).1 hpad
  have huv : storeValue u = v := by
    apply BitVec.eq_of_getLsbD_eq
    intro k _
    rw [hbits k, s.layout.offset_n]
    rcases Nat.lt_or_ge k s.layout.total with hk | hk
    · rw [if_pos hk]
    · rw [if_neg (Nat.not_lt.2 hk), (forall_getLsbD_iff_lt _ _).2 hstore k hk, (forall_getLsbD_iff_lt _ _).2 hv k hk]
  have hload := storeValue_load s v hv
  exact ⟨_, u, exec_load_of_fits v s hv, hu, huv.trans hload.symm, hload⟩

end Sys2Proof.Machine
end

section
/-! PROOFS, family other: what one command, one edge and one step keep (10_state.md sections 1 and 3, R87). -/

namespace Sys2Proof

/-! ### Instructions that write -/

/-- The instruction may write STORE: SET, SETB and LOAD (R13). -/
def Instr.writesStore : Instr → Bool
  | .nop => false
  | .get _ => false
  | .set _ _ => true
  | .setb _ _ => true
  | .load _ => true
  | .query _ => false
  | .rdword => false

/-- The opcodes of the instructions that may write STORE (R39). -/
theorem opcode_of_writesStore {c : Command} {i : Instr} (h : decode c = .ok i) (hi : i.writesStore = true) :
    c.cmd.toNat % 8 ∈ [2, 3, 4] := by
  have hop : c.cmd.toNat % 8 < 8 := Nat.mod_lt _ (by decide)
  rw [decode_byOpcode c (toNat_lt_of_decode h)] at h
  generalize c.cmd.toNat % 8 = op at h hop
  interval_cases op <;> cases h
  · cases hi
  · cases hi
  · decide
  · decide
  · decide
  · cases hi
  · cases hi

namespace Machine

/-! ### Commands -/

theorem CommandResult.layout {s t : State} (h : CommandResult s t) : t.layout = s.layout := by
  cases h <;> rfl

theorem CommandResult.inputs {s t : State} (h : CommandResult s t) : t.inputs = s.inputs := by
  cases h <;> rfl

theorem commandResult_of_acceptCommand {c : Command} {s t : State} (h : acceptCommand c s = .next t) :
    CommandResult s t := by
  obtain ⟨u, hu, hr⟩ := acceptCommand_result c s
  cases hu.symm.trans h
  exact hr

theorem storeValue_withField (i : Nat) (s : State) {run : State → State}
    (h : storeValue (run s) = storeValue s) : storeValue (withField i s run) = storeValue s := by
  rcases Nat.lt_or_ge i s.layout.n with hi | hi
  · rw [withField_of_lt i s run hi, h]
  · rw [withField_of_ge i s run hi]
    rfl

theorem exec_storeValue_of_not_writesStore (i : Instr) (s : State) (hi : i.writesStore = false) :
    ∃ t, exec i s = .next t ∧ storeValue t = storeValue s := by
  cases i with
  | nop => exact ⟨_, exec_nop s, rfl⟩
  | get i => exact ⟨_, rfl, storeValue_withField i s rfl⟩
  | query i => exact ⟨_, rfl, storeValue_withField i s rfl⟩
  | rdword => exact ⟨_, exec_rdword s, rfl⟩
  | set i v | setb i b | load v => cases hi

/-- Settles O20: an error writes nothing, and of the instructions only three write. -/
theorem onlySetSetbLoadWriteStore : Obligations.OnlySetSetbLoadWriteStore := by
  intro s t c h hne
  have hok : t.rspErr = .ok := by
    by_contra herr
    exact hne ((commandResult_of_acceptCommand h).storeValue_of_error herr)
  cases hd : decode c with
  | error r =>
    cases (acceptCommand_of_error s hd).symm.trans h
    exact absurd rfl hne
  | ok i =>
    refine ⟨hok, toNat_lt_of_decode hd, opcode_of_writesStore hd ?_⟩
    by_contra hi
    obtain ⟨u, hu, hstore⟩ := exec_storeValue_of_not_writesStore i s (Bool.not_eq_true _ ▸ hi)
    cases ((acceptCommand_of_decode s hd).trans hu).symm.trans h
    exact hne hstore

/-! ### Edges and steps -/

theorem EdgeResult.layout {p : PortInput} {s t : State} (h : EdgeResult p s t) : t.layout = s.layout := by
  cases h with
  | reset _ => rfl
  | idle _ _ => rfl
  | command _ _ _ _ hc => exact hc.layout

theorem EdgeResult.inputs {p : PortInput} {s t : State} (h : EdgeResult p s t) : t.inputs = s.inputs := by
  cases h with
  | reset _ => rfl
  | idle _ _ => rfl
  | command _ _ _ _ hc => exact hc.inputs

/-- Settles O41: a step is an edge. -/
theorem everyStepGoesOnWithTheSameLayout : Obligations.EveryStepGoesOnWithTheSameLayout := by
  intro s
  obtain ⟨t, ht, hr⟩ := clockEdge_result (nextInput s) (dropInput s)
  exact ⟨t, ht, hr.layout, hr.inputs⟩

/-! ### The invariant -/

theorem inv_resetFor (L : Layout) : Inv (State.resetFor L) :=
  ⟨BitVec.zero_ushiftRight, absurd rfl, nofun, nofun, nofun⟩

/-- Settles O42. -/
theorem resetMeetsTheInvariant : Obligations.ResetMeetsTheInvariant :=
  ⟨inv_resetFor, inv_resetFor Layout.chosen⟩

/-- Raising `e` sets the STATUS bit of `e` and leaves those of the other errors (R76). -/
theorem statusWith_getLsbD (e e' : RunError) (st : BitVec 3) :
    (statusWith e st).getLsbD e'.statusBit = (st.getLsbD e'.statusBit || decide (e = e')) := by
  revert st
  cases e <;> cases e' <;> decide

theorem errorRecorded_raise (e : RunError) (s : State) : errorRecorded (raise e s) := by
  have hbit : (statusWith e s.status).getLsbD e.statusBit = true := by
    rw [statusWith_getLsbD, decide_eq_true rfl, Bool.or_true]
  cases e with
  | ovf => exact ⟨fun _ => hbit, nofun, nofun⟩
  | badidx => exact ⟨nofun, fun _ => hbit, nofun⟩
  | illegal => exact ⟨nofun, nofun, fun _ => hbit⟩

/-- No command breaks the invariant. -/
theorem CommandResult.inv {s t : State} (h : CommandResult s t) (hs : Inv s) : Inv t := by
  obtain ⟨hpad, -, -⟩ := hs
  cases h with
  | error e => exact ⟨hpad, fun _ => rfl, errorRecorded_raise e s⟩
  | result d => exact ⟨hpad, absurd rfl, nofun, nofun, nofun⟩
  | write w hw => exact ⟨hw hpad, absurd rfl, nofun, nofun, nofun⟩

theorem EdgeResult.inv {p : PortInput} {s t : State} (h : EdgeResult p s t) (hs : Inv s) : Inv t := by
  cases h with
  | reset _ => exact inv_resetFor s.layout
  | idle _ _ => exact hs
  | command _ _ _ _ hc => exact hc.inv hs

/-- Settles O43: a step is an edge with the schedule moved on, and the invariant reads no schedule. -/
theorem everyStepKeepsTheInvariant : Obligations.EveryStepKeepsTheInvariant := fun _ _ hs h =>
  (edgeResult_of_clockEdge h).inv (s := dropInput _) hs

/-- A step is the edge with the input at the head of the schedule, which moves on (log 2). -/
theorem step_of_cons {s : State} {p : PortInput} {ps : List PortInput} (h : s.inputs = p :: ps) :
    step s = clockEdge p { s with inputs := ps } := by
  rw [step, nextInput, dropInput, h, List.headD_cons, List.tail_cons]

theorem step_of_decode {s : State} {p : PortInput} {ps : List PortInput} {i : Instr} (h : s.inputs = p :: ps)
    (hr : p.rst = false) (hv : p.cmdValid = true) (hd : decode p.command = .ok i) :
    step s = exec i { s with inputs := ps } :=
  (step_of_cons h).trans ((clockEdge_of_command _ hr hv).trans (acceptCommand_of_decode _ hd))

/-- Past the schedule's end a step is an idle edge (log 2). -/
theorem step_of_nil {s : State} (h : s.inputs = []) : step s = .next (idleEdge s) := by
  have hdrop : dropInput s = s := by rw [dropInput, h, List.tail_nil, ← h]
  rw [step, hdrop, nextInput, h]
  exact clockEdge_of_idle s rfl rfl

theorem decode_of_decodeTableWord {nbits w : Nat} {i : Instr} (h : decodeTableWord nbits w = some i) :
    decode (Command.ofTableWord nbits w) = .ok i := by
  rw [decodeTableWord] at h
  split at h
  · next hd => exact hd.trans (congrArg _ (Option.some.inj h))
  · cases h

/-- Settles O40: a word of the table stands at the head of the schedule as a command. -/
theorem stepRunsTheDecodedInstruction : Obligations.StepRunsTheDecodedInstruction :=
  ⟨fun _ _ _ _ hin hr hv hd => step_of_decode hin hr hv hd,
    fun s nbits w _ hd =>
      step_of_decode (s := s.withFetchWord nbits w) rfl rfl rfl (decode_of_decodeTableWord hd),
    fun _ hin => step_of_nil hin⟩

/-! ### Reset -/

/-- Settles O37: the reset values do not depend on what the power-up state holds. -/
theorem resetStateOfEveryLayout : Obligations.ResetStateOfEveryLayout := fun L unit _ hp =>
  ⟨rfl, clockEdge_of_rst (State.powerUp unit L) hp, rfl⟩

theorem extract_zero (L : Layout) (i : Nat) : extract L 0 i = 0 := by
  rw [extract, BitVec.ofNat_eq_ofNat, BitVec.zero_ushiftRight, BitVec.zero_and]

theorem fieldValue_resetFor (L : Layout) (i : Nat) : fieldValue (State.resetFor L) i = 0 :=
  (congrArg (BitVec.setWidth 64) (extract_zero L i)).trans (BitVec.setWidth_zero _ _)

/-- Settles O38. -/
theorem fieldsReadZeroAfterReset : Obligations.FieldsReadZeroAfterReset := by
  intro L i h
  rw [exec_get_of_lt i (State.resetFor L) h, fieldValue_resetFor]
  rfl

end Machine

end Sys2Proof
end

section
/-! PROOFS, family other: runs of programs (00_scope.md R10 and R11, 20_memory.md R32, 60_exceptions.md section 1,
70_reset_and_hazards.md R92 to R95). -/

namespace Sys2Proof.Machine

/-! ### One response per command -/

/-- Settles O44, along the program. -/
theorem oneResponsePerCommand : Obligations.OneResponsePerCommand := by
  intro cs
  induction cs with
  | nil => exact fun s => ⟨[], s, rfl, rfl, nofun⟩
  | cons c cs ih =>
    intro s
    obtain ⟨t, hc, hr⟩ := acceptCommand_result c s
    obtain ⟨rs, u, hcs, hlen, hzero⟩ := ih t
    exact ⟨_, u, observeProgram_cons hc hcs, congrArg (· + 1) hlen,
      List.forall_mem_cons.2 ⟨hr.rspData_of_error, hzero⟩⟩

/-! ### STATUS at the end of a run -/

theorem errCode_inj {e e' : RunError} : e.errCode = e'.errCode ↔ e = e' := by
  cases e <;> cases e' <;> decide

/-- After a command the STATUS bit of `e` is 1 exactly if it was or the command responded `e` (R15, R76). -/
theorem CommandResult.statusBit_iff {s t : State} (h : CommandResult s t) (e : RunError) :
    t.status.getLsbD e.statusBit = true ↔ s.status.getLsbD e.statusBit = true ∨ t.rspErr = e.errCode := by
  cases h with
  | error e' =>
    rw [raise_status, statusWith_getLsbD, Bool.or_eq_true, decide_eq_true_iff, raise_rspErr, errCode_inj]
  | result d => exact (or_iff_left (errCode_ne_ok e).symm).symm
  | write w hw => exact (or_iff_left (errCode_ne_ok e).symm).symm

/-- The same over a run. -/
theorem statusBit_iff_of_observeProgram {cs : List Command} {s u : State} {rs : List Response}
    (h : observeProgram cs s = .next (rs, u)) (e : RunError) :
    u.status.getLsbD e.statusBit = true ↔
      s.status.getLsbD e.statusBit = true ∨ ∃ r ∈ rs, r.err = e.errCode := by
  induction cs generalizing s rs with
  | nil =>
    cases h
    simp
  | cons c cs ih =>
    obtain ⟨t, hc, hr⟩ := acceptCommand_result c s
    obtain ⟨qs, v, hcs⟩ := observeProgram_answers cs t
    cases (observeProgram_cons hc hcs).symm.trans h
    rw [ih hcs, hr.statusBit_iff e, or_assoc, List.exists_mem_cons_iff]

theorem errorFree_iff (s : State) : errorFree s ↔ ∀ e : RunError, ¬ s.status.getLsbD e.statusBit = true := by
  have hbits : ∀ st : BitVec 3, st = 0 ↔
      ¬ st.getLsbD 0 = true ∧ ¬ st.getLsbD 1 = true ∧ ¬ st.getLsbD 2 = true := by decide
  refine (hbits s.status).trans ⟨fun ⟨h0, h1, h2⟩ e => ?_, fun h => ⟨h .ovf, h .badidx, h .illegal⟩⟩
  cases e with
  | ovf => exact h0
  | badidx => exact h1
  | illegal => exact h2

/-- A response is OK exactly if it reports no error (R44, R75). -/
theorem eq_ok_iff (c : ErrCode) : c = .ok ↔ ∀ e : RunError, c ≠ e.errCode := by
  cases c with
  | ok => exact iff_of_true rfl fun e => (errCode_ne_ok e).symm
  | ovf => exact iff_of_false nofun fun h => h .ovf rfl
  | badidx => exact iff_of_false nofun fun h => h .badidx rfl
  | illegal => exact iff_of_false nofun fun h => h .illegal rfl

/-- A run ends with STATUS 000 exactly if it started so and every response was OK. -/
theorem errorFree_iff_of_observeProgram {cs : List Command} {s u : State} {rs : List Response}
    (h : observeProgram cs s = .next (rs, u)) :
    errorFree u ↔ errorFree s ∧ ∀ r ∈ rs, r.err = .ok := by
  simp only [errorFree_iff, statusBit_iff_of_observeProgram h, eq_ok_iff, not_or, not_exists, not_and,
    forall_and]
  exact and_congr_right fun _ => ⟨fun hrs r hr e => hrs e r hr, fun hrs e r hr => hrs r hr e⟩

/-- Settles O46: one fact for the three bits, and STATUS is 000 if none is 1. -/
theorem finalStatusTellsWhichErrorsHappened : Obligations.FinalStatusTellsWhichErrorsHappened := by
  refine ⟨fun _ => rfl, fun s cs => ?_⟩
  obtain ⟨rs, u, h⟩ := observeProgram_answers cs s
  exact ⟨rs, u, h, statusBit_iff_of_observeProgram h .ovf, statusBit_iff_of_observeProgram h .badidx,
    statusBit_iff_of_observeProgram h .illegal, errorFree_iff_of_observeProgram h⟩

/-! ### Idle edges -/

/-- `s` with another value of RSP_VALID. -/
def State.withRspValid (s : State) (rv : Bool) : State := { s with rspValid := rv }

/-- No command reads RSP_VALID, and every one sets it. -/
theorem acceptCommand_withRspValid (c : Command) (s : State) (rv : Bool) :
    acceptCommand c (s.withRspValid rv) = acceptCommand c s := by
  obtain ⟨t, ht, hframe⟩ := acceptCommand_frame c s rv s.inputs
  have hin := (commandResult_of_acceptCommand ht).inputs
  refine Eq.trans hframe ?_
  rw [ht, ← hin]

/-- A run with idle edges against the program without them, from states that differ in RSP_VALID alone. -/
theorem observeEdges_eq_observeProgram (ps : List PortInput) (hps : ∀ p ∈ ps, p.rst = false) (s : State)
    (rv : Bool) :
    ∃ rs v rv', observeEdges ps (s.withRspValid rv) = .next (rs, v.withRspValid rv') ∧
      observeProgram ((ps.filter fun p => p.cmdValid).map PortInput.command) s = .next (rs, v) := by
  induction ps generalizing s rv with
  | nil => exact ⟨[], s, rv, rfl, rfl⟩
  | cons p ps ih =>
    obtain ⟨hp, hps⟩ := List.forall_mem_cons.1 hps
    cases hv : p.cmdValid with
    | false =>
      obtain ⟨rs, v, rv', hedges, hprog⟩ := ih hps s false
      refine ⟨rs, v, rv', observeEdges_cons (clockEdge_of_idle _ hp hv) hedges, ?_⟩
      rwa [List.filter_cons_of_neg (by simp [hv])]
    | true =>
      obtain ⟨t, ht, hr⟩ := acceptCommand_result p.command s
      obtain ⟨rs, v, rv', hedges, hprog⟩ := ih hps t t.rspValid
      have hedge : clockEdge p (s.withRspValid rv) = .next t := by
        rw [clockEdge_of_command _ hp hv, acceptCommand_withRspValid, ht]
      have hrun := observeEdges_cons hedge hedges
      rw [responseO_of_rspValid hr.rspValid] at hrun
      refine ⟨_, v, rv', hrun, ?_⟩
      rw [List.filter_cons_of_pos hv, List.map_cons]
      exact observeProgram_cons ht hprog

/-- Settles O47: the two runs end in states that differ in RSP_VALID alone. -/
theorem idleEdgesChangeNoResponse : Obligations.IdleEdgesChangeNoResponse := by
  intro ps s hps
  obtain ⟨rs, v, rv', hedges, hprog⟩ := observeEdges_eq_observeProgram ps hps s s.rspValid
  exact ⟨rs, _, v, hedges, hprog, rfl, rfl, rfl, rfl⟩

/-! ### Steps over a schedule -/

/-- A step with the command `c` at the head of the schedule accepts it. -/
theorem step_of_scheduled {s : State} {c : Command} {ps : List PortInput}
    (h : s.inputs = PortInput.ofCommand c :: ps) : step s = acceptCommand c { s with inputs := ps } :=
  (step_of_cons h).trans (clockEdge_of_command _ rfl rfl)

theorem core_run_succ {s t : State} (k : Nat) (h : step s = .next t) :
    Sys2Proof.core.run (k + 1) s = Sys2Proof.core.run k t := by
  have hcore : Sys2Proof.core.step s = .next t := h
  simp only [Host.Core.run, hcore]

/-- Settles O48, along the program: each step accepts one command, whatever stands behind it. -/
theorem stepsRunTheScheduledProgram : Obligations.StepsRunTheScheduledProgram := by
  intro cs ps
  induction cs with
  | nil =>
    intro s h
    subst h
    exact ⟨[], s, rfl, rfl⟩
  | cons c cs ih =>
    intro s h
    obtain ⟨t, ht, hframe⟩ := acceptCommand_frame c { s with inputs := cs.map PortInput.ofCommand ++ ps }
      s.rspValid ps
    obtain ⟨rs, u, hprog, hrun⟩ := ih t (commandResult_of_acceptCommand ht).inputs
    exact ⟨_, u, observeProgram_cons hframe hprog,
      (core_run_succ cs.length ((step_of_scheduled h).trans ht)).trans hrun⟩

/-! ### Two hosts -/

/-- Settles O49: the other host's SET falls between the first host's GET and SET. -/
theorem hostReadModifyWriteIsNotAtomic : Obligations.HostReadModifyWriteIsNotAtomic := by
  intro s i mine other h hmine hother
  have hwf : (Instr.get i).wf = true := decide_eq_true (h.trans_le s.layout.n_le)
  have hget := (acceptCommand_encode _ s (decode_encode _ hwf)).trans (exec_get_of_lt i s h)
  have hsetOther := acceptCommand_set_of_fits i other (respond .ok (fieldValue s i) s) h hother
  have hsetMine := acceptCommand_set_of_fits i mine
    (respond .ok 0 (writeStore s (insert s.layout s.store i other))) h hmine
  refine ⟨[encode (.get i), encode (.set i other), encode (.set i mine)], _, ?_,
    observeProgram_cons hget (observeProgram_cons hsetOther (observeProgram_cons hsetMine rfl)),
    fieldValue_insert _ i mine h hmine⟩
  simp [interleaves]

end Sys2Proof.Machine
end

section
/-! PROOFS, family other: which lines the assembler accepts and what it emits for them (R46), and how a BFU of
the layout answers (R45). -/

namespace Sys2Proof.Machine

/-! ### Sequencing -/

theorem bind_eq_ok_iff {ε α β : Type} {x : Except ε α} {f : α → Except ε β} {b : β} :
    x >>= f = .ok b ↔ ∃ a, x = .ok a ∧ f a = .ok b := by
  cases x with
  | error e => exact ⟨nofun, fun ⟨_, h, _⟩ => nomatch h⟩
  | ok a => exact ⟨fun h => ⟨a, rfl, h⟩, fun ⟨_, ha, h⟩ => Except.ok.inj ha ▸ h⟩

theorem ok_eq_ok_iff {ε α : Type} {a b : α} : (Except.ok a : Except ε α) = .ok b ↔ b = a :=
  ⟨fun h => (Except.ok.inj h).symm, fun h => congrArg _ h.symm⟩

theorem bind_ok_eq_ok_iff {ε α β : Type} {x : Except ε α} {g : α → β} {b : β} :
    (x >>= fun a => .ok (g a)) = .ok b ↔ ∃ a, x = .ok a ∧ b = g a :=
  bind_eq_ok_iff.trans (exists_congr fun _ => and_congr_right fun _ => ok_eq_ok_iff)

/-! ### Fields and constants -/

theorem resolveField_eq_ok_iff {L : Layout} {f : FieldRef} {i : Nat} :
    resolveField (some L) f = .ok i ↔ refersTo L f i :=
  ⟨refersTo_of_resolveField, resolveField_of_refersTo⟩

/-- Without the layout an index is checked against FIDX's 6 bits alone. -/
theorem resolveField_none_eq_ok_iff {k i : Nat} :
    resolveField none (.index k) = .ok i ↔ k < 64 ∧ i = k := by
  rw [resolveField]
  split_ifs with hk
  · exact iff_of_false nofun fun h => absurd h.1 (Nat.not_lt.2 hk)
  · rw [ok_eq_ok_iff, and_iff_right (Nat.not_le.1 hk)]

theorem asmValue_eq_ok_iff {v : Nat} {w : Word} : asmValue v = .ok w ↔ v < 2 ^ 64 ∧ w = BitVec.ofNat 64 v := by
  rw [asmValue]
  split_ifs with hv
  · rw [ok_eq_ok_iff, and_iff_right hv]
  · exact iff_of_false nofun fun h => absurd h.1 hv

theorem ofNat_toNat_of_lt {v : Nat} (h : v < 2 ^ 64) : (BitVec.ofNat 64 v).toNat = v :=
  (BitVec.toNat_ofNat v 64).trans (Nat.mod_eq_of_lt h)

theorem toNat_ofNat_le (v : Nat) : (BitVec.ofNat 64 v).toNat ≤ v :=
  (BitVec.toNat_ofNat v 64).trans_le (Nat.mod_le _ _)

theorem asmSet_eq_ok_iff {L : Layout} {f : FieldRef} {v : Nat} {j : Instr} :
    asmSet (some L) f v = .ok j ↔
      ∃ i, refersTo L f i ∧ v < 2 ^ L.len i ∧ j = .set i (BitVec.ofNat 64 v) := by
  constructor
  · intro h
    obtain ⟨i, hi, h⟩ := bind_eq_ok_iff.1 h
    obtain ⟨w, hw, h⟩ := bind_eq_ok_iff.1 h
    obtain ⟨hv, rfl⟩ := asmValue_eq_ok_iff.1 hw
    have hf := resolveField_eq_ok_iff.1 hi
    simp only [fieldOvf_eq L _ i (refersTo_lt hf), ofNat_toNat_of_lt hv] at h
    split_ifs at h with hovf
    exact ⟨i, hf, Nat.not_le.1 (mt decide_eq_true hovf), ok_eq_ok_iff.1 h⟩
  · rintro ⟨i, hf, hv, rfl⟩
    exact asmSet_of_fits hf hv

theorem asmLoad_eq_ok_iff {L : Layout} {v : Nat} {j : Instr} :
    asmLoad (some L) v = .ok j ↔ v < 2 ^ L.total ∧ j = .load (BitVec.ofNat 64 v) := by
  have hpow : 2 ^ L.total ≤ 2 ^ 64 := Nat.pow_le_pow_right (by decide) L.total_le
  refine bind_eq_ok_iff.trans ⟨?_, ?_⟩
  · rintro ⟨w, hw, h⟩
    obtain ⟨hv, rfl⟩ := asmValue_eq_ok_iff.1 hw
    simp only [wordOvf_eq, ofNat_toNat_of_lt hv] at h
    split_ifs at h with hovf
    exact ⟨Nat.not_le.1 (mt decide_eq_true hovf), ok_eq_ok_iff.1 h⟩
  · rintro ⟨hv, rfl⟩
    have hv64 := hv.trans_le hpow
    refine ⟨_, asmValue_of_lt hv64, ?_⟩
    simp only [wordOvf_eq, ofNat_toNat_of_lt hv64, decide_eq_false (Nat.not_le.2 hv)]
    rfl

theorem asmRaw_eq_ok_iff {k v : Nat} {c : Command} :
    asmRaw k v = .ok c ↔
      k < 2 ^ 16 ∧ v < 2 ^ 64 ∧ c = { cmd := BitVec.ofNat 16 k, wdata := BitVec.ofNat 64 v } := by
  refine bind_eq_ok_iff.trans ?_
  simp only [asmValue_eq_ok_iff]
  constructor
  · rintro ⟨_, ⟨hv, rfl⟩, h⟩
    split_ifs at h with hk
    exact ⟨hk, hv, ok_eq_ok_iff.1 h⟩
  · rintro ⟨hk, hv, rfl⟩
    exact ⟨_, ⟨hv, rfl⟩, if_pos hk⟩

/-! ### Lines -/

/-- A line of one command of the field it names. -/
theorem resolve_eq_ok_iff {L : Layout} {f : FieldRef} (g : Nat → Command) {c : Command} :
    (resolveField (some L) f >>= fun i => .ok (g i)) = .ok c ↔ ∃ i, refersTo L f i ∧ c = g i :=
  bind_ok_eq_ok_iff.trans (exists_congr fun _ => and_congr_left' resolveField_eq_ok_iff)

theorem resolve_none_eq_ok_iff {k : Nat} (g : Nat → Command) {c : Command} :
    (resolveField none (.index k) >>= fun i => .ok (g i)) = .ok c ↔ k < 64 ∧ c = g k := by
  refine bind_ok_eq_ok_iff.trans ?_
  simp only [resolveField_none_eq_ok_iff, and_assoc, exists_and_left, exists_eq_left]

theorem assemble_set_eq_ok_iff {L : Layout} {f : FieldRef} {v : Nat} {c : Command} :
    assemble (some L) (.set f v) = .ok c ↔
      ∃ i, refersTo L f i ∧ v < 2 ^ L.len i ∧ c = encode (.set i (BitVec.ofNat 64 v)) := by
  refine bind_ok_eq_ok_iff.trans ⟨?_, ?_⟩
  · rintro ⟨j, hj, rfl⟩
    obtain ⟨i, hf, hv, rfl⟩ := asmSet_eq_ok_iff.1 hj
    exact ⟨i, hf, hv, rfl⟩
  · rintro ⟨i, hf, hv, rfl⟩
    exact ⟨_, asmSet_of_fits hf hv, rfl⟩

theorem assemble_load_eq_ok_iff {L : Layout} {v : Nat} {c : Command} :
    assemble (some L) (.load v) = .ok c ↔ v < 2 ^ L.total ∧ c = encode (.load (BitVec.ofNat 64 v)) := by
  refine bind_ok_eq_ok_iff.trans ?_
  simp only [asmLoad_eq_ok_iff, and_assoc, exists_and_left, exists_eq_left]

theorem assemble_none_set_eq_ok_iff {k v : Nat} {c : Command} :
    assemble none (.set (.index k) v) = .ok c ↔
      k < 64 ∧ v < 2 ^ 64 ∧ c = encode (.set k (BitVec.ofNat 64 v)) := by
  simp only [assemble, asmSet, bind_eq_ok_iff, resolveField_none_eq_ok_iff, asmValue_eq_ok_iff, pure, Except.pure,
    ok_eq_ok_iff, and_assoc, exists_and_left, exists_eq_left]

theorem assemble_none_load_eq_ok_iff {v : Nat} {c : Command} :
    assemble none (.load v) = .ok c ↔ v < 2 ^ 64 ∧ c = encode (.load (BitVec.ofNat 64 v)) := by
  simp only [assemble, asmLoad, bind_eq_ok_iff, asmValue_eq_ok_iff, pure, Except.pure, ok_eq_ok_iff, and_assoc,
    exists_and_left, exists_eq_left]

/-- Settles O51, a lemma per line. -/
theorem assemblerAcceptsExactlyWhatFits : Obligations.AssemblerAcceptsExactlyWhatFits := fun _ _ _ _ b _ =>
  ⟨ok_eq_ok_iff, resolve_eq_ok_iff fun i => encode (.get i), assemble_set_eq_ok_iff,
    resolve_eq_ok_iff fun i => encode (.setb i b), assemble_load_eq_ok_iff,
    resolve_eq_ok_iff fun i => encode (.query i), ok_eq_ok_iff, asmRaw_eq_ok_iff, ok_eq_ok_iff,
    resolve_none_eq_ok_iff fun i => encode (.get i), assemble_none_set_eq_ok_iff,
    resolve_none_eq_ok_iff fun i => encode (.setb i b), assemble_none_load_eq_ok_iff,
    resolve_none_eq_ok_iff fun i => encode (.query i), ok_eq_ok_iff, asmRaw_eq_ok_iff⟩

/-- Settles O52: a name that is none of the layout's, and an index of N or more, name no field. -/
theorem fieldNamesResolveToTheirIndex : Obligations.FieldNamesResolveToTheirIndex := by
  refine fun L => ⟨fun ns hns => ⟨L.names_length hns, fun i h => ?_, fun label hnot => ?_⟩,
    fun hnone label => ?_, fun k hk => resolveField_of_refersTo ⟨rfl, hk⟩, fun k hk => ?_⟩
  · exact resolveField_of_refersTo ⟨ns, hns, List.getElem?_eq_getElem h⟩
  · refine resolveField_rejects fun i ⟨ns', hns', hi⟩ => hnot ?_
    cases hns.symm.trans hns'
    exact List.mem_of_getElem? hi
  · exact resolveField_rejects fun i ⟨ns, hns, _⟩ => nomatch hnone.symm.trans hns
  · refine resolveField_rejects ?_
    rintro i ⟨rfl, hi⟩
    exact Nat.not_lt.2 hk hi

/-! ### What the emitted commands answer -/

/-- `c` is the encoder's word of an instruction that every BFU of layout `L` answers with OK. -/
def EmitsOk (L : Layout) (c : Command) : Prop :=
  ∃ i : Instr, i.wf = true ∧ instrAnswer L i = .ok ∧ c = encode i

theorem EmitsOk.acceptCommand {s : State} {c : Command} (h : EmitsOk s.layout c) :
    ∃ t, acceptCommand c s = .next t ∧ t.rspErr = .ok := by
  obtain ⟨i, hwf, hok, rfl⟩ := h
  obtain ⟨t, ht, herr⟩ := exec_answer i s
  exact ⟨t, (acceptCommand_encode i s (decode_encode i hwf)).trans ht, herr.trans hok⟩

section
variable {L : Layout} {f : FieldRef} {c : Command}

/-- An instruction that the index check alone can stop passes it with a field that `<field>` names. -/
theorem emitsOk_of_field {i : Nat} (hf : refersTo L f i) (j : Instr) (hwf : j.wf = fidxFits i)
    (hans : instrAnswer L j = if L.n ≤ i then .badidx else .ok) : EmitsOk L (encode j) :=
  have hi := refersTo_lt hf
  ⟨j, hwf.trans (decide_eq_true (hi.trans_le L.n_le)), hans.trans (if_neg (Nat.not_le.2 hi)), rfl⟩

theorem emitsOk_setb {b : Bool} (h : assemble (some L) (.setb f b) = .ok c) : EmitsOk L c := by
  obtain ⟨i, hf, rfl⟩ := (resolve_eq_ok_iff fun i => encode (.setb i b)).1 h
  exact emitsOk_of_field hf (.setb i b) rfl rfl

theorem emitsOk_set {v : Nat} (h : assemble (some L) (.set f v) = .ok c) : EmitsOk L c := by
  obtain ⟨i, hf, hv, rfl⟩ := assemble_set_eq_ok_iff.1 h
  have hfits : ¬ 2 ^ L.len i ≤ (BitVec.ofNat 64 v).toNat := Nat.not_le.2 ((toNat_ofNat_le v).trans_lt hv)
  exact emitsOk_of_field hf (.set i _) rfl (by rw [instrAnswer, if_neg hfits])

theorem emitsOk_load {v : Nat} (h : assemble (some L) (.load v) = .ok c) : EmitsOk L c := by
  obtain ⟨hv, rfl⟩ := assemble_load_eq_ok_iff.1 h
  have hfits : ¬ 2 ^ L.total ≤ (BitVec.ofNat 64 v).toNat := Nat.not_le.2 ((toNat_ofNat_le v).trans_lt hv)
  exact ⟨.load _, rfl, if_neg hfits, rfl⟩

/-- What SETMAX emits is what some SET emits. -/
theorem exists_set_of_setmax (h : assemble (some L) (.setmax f) = .ok c) :
    ∃ v, assemble (some L) (.set f v) = .ok c := by
  obtain ⟨j, hj, hc⟩ := bind_ok_eq_ok_iff.1 h
  obtain ⟨i, -, hset⟩ := bind_eq_ok_iff.1 hj
  exact ⟨_, bind_ok_eq_ok_iff.2 ⟨j, hset, hc⟩⟩

theorem assemble_emitsOk (a : AsmLine) (hraw : ∀ w v, a ≠ .raw w v) (h : assemble (some L) a = .ok c) :
    EmitsOk L c := by
  cases a with
  | nop => exact ⟨.nop, rfl, rfl, ok_eq_ok_iff.1 h⟩
  | get f =>
    obtain ⟨i, hf, rfl⟩ := (resolve_eq_ok_iff fun i => encode (.get i)).1 h
    exact emitsOk_of_field hf (.get i) rfl rfl
  | set f v => exact emitsOk_set h
  | setb f b => exact emitsOk_setb h
  | load v => exact emitsOk_load h
  | query f =>
    obtain ⟨i, hf, rfl⟩ := (resolve_eq_ok_iff fun i => encode (.query i)).1 h
    exact emitsOk_of_field hf (.query i) rfl rfl
  | rdword => exact ⟨.rdword, rfl, rfl, ok_eq_ok_iff.1 h⟩
  | raw w v => exact absurd rfl (hraw w v)
  | clear => exact emitsOk_load (assemble_clear _ ▸ h)
  | clrf f => exact emitsOk_set (assemble_clrf _ f ▸ h)
  | setmax f =>
    obtain ⟨v, hv⟩ := exists_set_of_setmax h
    exact emitsOk_set hv
  | sett f => exact emitsOk_setb (assemble_sett _ f ▸ h)
  | setf f => exact emitsOk_setb (assemble_setf _ f ▸ h)

end

/-- Settles O50: each line emits an instruction whose index and constant pass the BFU's own checks. -/
theorem assembledCommandsNeverError : Obligations.AssembledCommandsNeverError := fun a _ _ hraw h =>
  (assemble_emitsOk a hraw h).acceptCommand

end Sys2Proof.Machine
end
